-- ==== Sys2Proof/Word.lean ====
section
/-! DEFINITION. The words of the block: bytes, 32-bit words and 64-bit words (`00_scope.md` R6, R8). All are
unsigned and their addition wraps modulo the width (R6, R7). -/

namespace Sys2Proof

/-- One byte of a stream or of an internal byte space (R8). -/
abbrev Byte := BitVec 8

/-- A command word, the `STATUS` word, or a word of MD5, SHA-1 and SHA-256. -/
abbrev Word32 := BitVec 32

/-- A word of SHA-512, or the length counter. -/
abbrev Word64 := BitVec 64

end Sys2Proof
end

