-- ==== Sys2Proof/Syntax.lean ====
section
/-! DEFINITION. The commands of the block as syntax: one constructor of `Instr` for each row of
`spec/opcode_table.json` (`30_encoding.md` R75), with the algorithm and the payload count as operands. -/

namespace Sys2Proof

/-- The four algorithms (`00_scope.md` R2, R11; `10_state.md` R22). -/
inductive Alg where
  | md5
  | sha1
  | sha256
  | sha512
  deriving DecidableEq, Repr

/-- The three command errors (`60_exceptions.md` R221). -/
inductive CmdError where
  /-- `E_ILLOP`: the operation field is 0x0 or one of 0x8 to 0xE (R222). -/
  | illop
  /-- `E_FIELD`: a field breaks a constraint of `30_encoding.md` R76 (R223). -/
  | field
  /-- `E_NOKEY`: HSIGN while no key is stored (R224). -/
  | nokey
  deriving DecidableEq, Repr

/-- The eight operations of the opcode map (`30_encoding.md` R75). -/
inductive Op where
  | init
  | reset
  | update
  | result
  | digest
  | hkey
  | hsign
  | clrerr
  deriving DecidableEq, Repr

/-- The eight commands with their operands (R75, R76). A `count` is the number of payload bytes that follow the
command word on the data-in stream (R74). -/
inductive Instr where
  /-- INIT: start a message under `alg` on the host-visible instance (`42_commands.md` R181). -/
  | init (alg : Alg)
  /-- RESET: start a message under the instance's own algorithm (R182). -/
  | reset
  /-- UPDATE: absorb the payload (R183). -/
  | update (count : Nat)
  /-- RESULT: finalize and output the digest (R184). -/
  | result
  /-- DIGEST: one-shot digest of the payload (R185). -/
  | digest (alg : Alg) (count : Nat)
  /-- HKEY: derive and store a signing key from the payload (R187). -/
  | hkey (alg : Alg) (count : Nat)
  /-- HSIGN: output the MAC of the payload under the stored key (R189). -/
  | hsign (count : Nat)
  /-- CLRERR: clear the sticky error record (R191). -/
  | clrerr
  deriving DecidableEq, Repr

end Sys2Proof
end

