-- ==== Sys2Proof/Config.lean ====
section
/-! DEFINITION. What the spec fixes for every block but no rule reads, and the values it leaves open. The constants
declared `opaque` have no body: nothing can be proved about their values. -/

namespace Sys2Proof.Config

/-- The block's identity string (`00_scope.md` R1). -/
def identity : String := "lhash-core/v7"

/-- The version of the command set (R1). -/
def commandSetVersion : Nat := 1

/-- `T_BLOCK(alg)`, the cycles of one compression: the OPEN parameter of `00_scope.md` R5. No rule depends on it
(`70_reset_and_hazards.md` R261), so nothing of the model reads it. Log entry 15. -/
opaque tBlock : Alg → Nat

/-- What an unspecified value stands for, so that two open values never share a draw. -/
inductive FreeKind where
  | alg
  | chain
  | buf
  | occ
  | len
  | phase
  | out
  | status
  deriving DecidableEq, Repr

/-- The free values: `w` bits that the spec leaves unspecified, the `idx`-th of its kind in draw number `draw`
(`00_scope.md` R10 `any(n)`; `93_implementation_defined.md`, treatment `any value`). DESIGN CHOICE (the form of the
draw), log entry 1: safe. -/
opaque free (kind : FreeKind) (draw idx w : Nat) : BitVec w

end Sys2Proof.Config
end

