-- ==== Sys2Proof/WellFormed.lean ====
section
/-! DEFINITION. Which terms of `Instr` a command word can carry: the payload count is a 24-bit field
(`30_encoding.md` R74). -/

namespace Sys2Proof

/-- A payload count that fits the `COUNT` field: 0 to 16 777 215 (R74). -/
def countFits (n : Nat) : Bool := decide (n < 2 ^ 24)

/-- The instruction has an encoding. -/
def Instr.wf : Instr → Bool
  | .init _ => true
  | .reset => true
  | .update n => countFits n
  | .result => true
  | .digest _ n => countFits n
  | .hkey _ n => countFits n
  | .hsign n => countFits n
  | .clrerr => true

end Sys2Proof
end

