-- ==== Sys2Proof/Decode.lean ====
section
/-! DEFINITION. Command words to commands and back (`30_encoding.md`). A command word is one 32-bit transfer
(`20_memory.md` R56, R58), so decoding reads a word and not bytes; it is total (R77). -/

namespace Sys2Proof

/-! ## Fields (R70 to R74) -/

/-- `OP = w[3:0]` (R71). -/
def opField (w : Word32) : BitVec 4 := w.extractLsb' 0 4

/-- `ALG = w[5:4]` (R72). -/
def algField (w : Word32) : BitVec 2 := w.extractLsb' 4 2

/-- `RSV = w[7:6]` (R73). -/
def rsvField (w : Word32) : BitVec 2 := w.extractLsb' 6 2

/-- `COUNT = zext_32(w[31:8])`, the payload length, for every operation value (R74). -/
def countField (w : Word32) : Nat := (w.extractLsb' 8 24).toNat

/-- The algorithm selector's value (R72). -/
def Alg.code : Alg → BitVec 2
  | .md5 => 0b00#2
  | .sha1 => 0b01#2
  | .sha256 => 0b10#2
  | .sha512 => 0b11#2

/-- The algorithm a selector names; all four values are legal (R72). -/
def Alg.ofCode (c : BitVec 2) : Alg :=
  if c = 0b00#2 then .md5 else if c = 0b01#2 then .sha1 else if c = 0b10#2 then .sha256 else .sha512

/-- The operation's value in the opcode map (R75). -/
def Op.code : Op → BitVec 4
  | .init => 0x1#4
  | .reset => 0x2#4
  | .update => 0x3#4
  | .result => 0x4#4
  | .digest => 0x5#4
  | .hkey => 0x6#4
  | .hsign => 0x7#4
  | .clrerr => 0xF#4

/-- All operations, in the order of the opcode table. -/
def Op.all : List Op := [.init, .reset, .update, .result, .digest, .hkey, .hsign, .clrerr]

/-- The operation an opcode names, or none where the opcode is illegal (R75, R78). -/
def Op.ofCode (c : BitVec 4) : Option Op := Op.all.find? fun o => o.code = c

/-- The bits of a command word that its operation fixes (R76). -/
def Op.mask : Op → Word32
  | .init => 0xFFFFFFCF#32
  | .reset => 0xFFFFFFFF#32
  | .update => 0x000000FF#32
  | .result => 0xFFFFFFFF#32
  | .digest => 0x000000CF#32
  | .hkey => 0x000000CF#32
  | .hsign => 0x000000FF#32
  | .clrerr => 0xFFFFFFFF#32

/-- The values of those bits (R76). -/
def Op.pattern : Op → Word32
  | .init => 0x00000001#32
  | .reset => 0x00000002#32
  | .update => 0x00000003#32
  | .result => 0x00000004#32
  | .digest => 0x00000005#32
  | .hkey => 0x00000006#32
  | .hsign => 0x00000007#32
  | .clrerr => 0x0000000F#32

/-- The command of an operation with the word's fields as operands (R75). -/
def Op.instr (o : Op) (alg : Alg) (count : Nat) : Instr :=
  match o with
  | .init => .init alg
  | .reset => .reset
  | .update => .update count
  | .result => .result
  | .digest => .digest alg count
  | .hkey => .hkey alg count
  | .hsign => .hsign count
  | .clrerr => .clrerr

/-! ## Decoding -/

/-- The command a word stands for, or the name of the error it raises: an illegal operation first, then a field that
breaks its constraint (R77, `60_exceptions.md` R222, R223, R225). -/
def decode (w : Word32) : Except CmdError Instr :=
  match Op.ofCode (opField w) with
  | none => .error .illop
  | some o => if w &&& o.mask = o.pattern then .ok (o.instr (Alg.ofCode (algField w)) (countField w)) else .error .field

/-- The decoder on an instruction of `spec/opcode_table.json`, whose bits are numbered as the command word's are
(R6, R58): bits above `nbits` are zero, and no command word is longer than 32 bits (R80). -/
def decodeTableWord (nbits w : Nat) : Option Instr :=
  if nbits ≤ 32 then
    match decode (BitVec.ofNat 32 (w % 2 ^ nbits)) with
    | .ok i => some i
    | .error _ => none
  else none

/-! ## Encoding -/

/-- A command word from its fields (R70). -/
def packWord (count : Nat) (rsv : BitVec 2) (alg : BitVec 2) (op : BitVec 4) : Word32 :=
  BitVec.ofNat 24 count ++ rsv ++ alg ++ op

/-- The operation of a command. -/
def Instr.op : Instr → Op
  | .init _ => .init
  | .reset => .reset
  | .update _ => .update
  | .result => .result
  | .digest _ _ => .digest
  | .hkey _ _ => .hkey
  | .hsign _ => .hsign
  | .clrerr => .clrerr

/-- The number of payload bytes of a command; 0 where R76 requires `COUNT = 0`. -/
def Instr.count : Instr → Nat
  | .init _ => 0
  | .reset => 0
  | .update n => n
  | .result => 0
  | .digest _ n => n
  | .hkey _ n => n
  | .hsign n => n
  | .clrerr => 0

/-- The algorithm selector of a command; 00 where R76 requires it. -/
def Instr.algCode : Instr → BitVec 2
  | .init a => a.code
  | .reset => 0b00#2
  | .update _ => 0b00#2
  | .result => 0b00#2
  | .digest a _ => a.code
  | .hkey a _ => a.code
  | .hsign _ => 0b00#2
  | .clrerr => 0b00#2

/-- The command word of a well-formed command (R70, R75, R76). -/
def encode (i : Instr) : Word32 := packWord i.count 0b00#2 i.algCode i.op.code

end Sys2Proof
end

