-- ==== Sys2Proof/Machine/Bits.lean ====
section
/-! DEFINITION. Word operations and byte sequences (`00_scope.md` R7, R8, R9). -/

namespace Sys2Proof.Machine

/-- `ROTL_w(x, s)` for `0 < s < w` (R7). -/
def rotl {w : Nat} (x : BitVec w) (s : Nat) : BitVec w := x <<< s ||| x >>> (w - s)

/-- `ROTR_w(x, s)` for `0 < s < w` (R7). -/
def rotr {w : Nat} (x : BitVec w) (s : Nat) : BitVec w := x >>> s ||| x <<< (w - s)

/-- `SHR(x, s)`, zero fill (R7). -/
def shr {w : Nat} (x : BitVec w) (s : Nat) : BitVec w := x >>> s

/-- Byte `j` of a sequence (R8). Every index a rule uses is in range (R10). -/
def byteAt (s : List Byte) (j : Nat) : Byte := s.getD j 0#8

/-- `zeros(n)` (R8). -/
def zeros (n : Nat) : List Byte := List.replicate n 0x00#8

/-- `xorBytes(s, c)` (R8). -/
def xorBytes (s : List Byte) (c : Byte) : List Byte := s.map fun b => b ^^^ c

/-- `LE32(s, j)` (R9). -/
def le32 (s : List Byte) (j : Nat) : Word32 :=
  (byteAt s j).setWidth 32 ||| (byteAt s (j + 1)).setWidth 32 <<< 8 ||| (byteAt s (j + 2)).setWidth 32 <<< 16
    ||| (byteAt s (j + 3)).setWidth 32 <<< 24

/-- `BE32(s, j)` (R9). -/
def be32 (s : List Byte) (j : Nat) : Word32 :=
  (byteAt s j).setWidth 32 <<< 24 ||| (byteAt s (j + 1)).setWidth 32 <<< 16 ||| (byteAt s (j + 2)).setWidth 32 <<< 8
    ||| (byteAt s (j + 3)).setWidth 32

/-- `BE64(s, j)`, the sum of the shifted bytes (R9). -/
def be64 (s : List Byte) (j : Nat) : Word64 :=
  (List.range 8).foldl (fun acc k => acc + (byteAt s (j + k)).setWidth 64 <<< (56 - 8 * k)) 0#64

/-- `toLE(x, n)`: `n` bytes, least significant first (R9). -/
def toLE {w : Nat} (x : BitVec w) (n : Nat) : List Byte := (List.range n).map fun k => (x >>> (8 * k)).setWidth 8

/-- `toBE(x, n)`: `n` bytes, most significant first (R9). -/
def toBE {w : Nat} (x : BitVec w) (n : Nat) : List Byte :=
  (List.range n).map fun k => (x >>> (8 * (n - 1 - k))).setWidth 8

end Sys2Proof.Machine
end

