-- ==== Sys2Proof/Machine/Params.lean ====
section
/-! DEFINITION. The parameters of the algorithms (`10_state.md` R22): fixed, not configurable. -/

namespace Sys2Proof.Alg

/-- Block size in bytes. -/
def B : Alg → Nat
  | .md5 => 64
  | .sha1 => 64
  | .sha256 => 64
  | .sha512 => 128

/-- Output size in bytes. -/
def N : Alg → Nat
  | .md5 => 16
  | .sha1 => 20
  | .sha256 => 32
  | .sha512 => 64

/-- Size of the length field in bytes. -/
def LF : Alg → Nat
  | .md5 => 8
  | .sha1 => 8
  | .sha256 => 8
  | .sha512 => 16

/-- Number of words of the chaining value. -/
def n : Alg → Nat
  | .md5 => 4
  | .sha1 => 5
  | .sha256 => 8
  | .sha512 => 8

/-- Width of a word in bits. -/
def w : Alg → Nat
  | .md5 => 32
  | .sha1 => 32
  | .sha256 => 32
  | .sha512 => 64

end Sys2Proof.Alg
end

