-- ==== Sys2Proof/Machine/Chain.lean ====
section
/-! DEFINITION. Chaining values (`10_state.md` R23, R24): their shape per algorithm, their initial values
(`40_compression.md` R109, R115, R123, R131) and their serialization (`41_streaming.md` R158). -/

namespace Sys2Proof.Machine

/-- Four words: `H[0..3]` of MD5, and its working registers `a` to `d`. -/
structure Words4 (w : Nat) where
  a : BitVec w
  b : BitVec w
  c : BitVec w
  d : BitVec w
  deriving DecidableEq, Repr

/-- Five words: `H[0..4]` of SHA-1, and its working registers `a` to `e`. -/
structure Words5 (w : Nat) where
  a : BitVec w
  b : BitVec w
  c : BitVec w
  d : BitVec w
  e : BitVec w
  deriving DecidableEq, Repr

/-- Eight words: `H[0..7]` of SHA-256 and SHA-512, and their working registers `a` to `h`. -/
structure Words8 (w : Nat) where
  a : BitVec w
  b : BitVec w
  c : BitVec w
  d : BitVec w
  e : BitVec w
  f : BitVec w
  g : BitVec w
  h : BitVec w
  deriving DecidableEq, Repr

/-- A chaining value of one of the four algorithms: `n(alg)` words of `w(alg)` bits (R22, R23). -/
inductive Chain where
  | md5 (h : Words4 32)
  | sha1 (h : Words5 32)
  | sha256 (h : Words8 32)
  | sha512 (h : Words8 64)
  deriving DecidableEq, Repr

/-- The algorithm a chaining value belongs to. -/
def Chain.alg : Chain → Alg
  | .md5 _ => .md5
  | .sha1 _ => .sha1
  | .sha256 _ => .sha256
  | .sha512 _ => .sha512

/-- The words `H[0..3]` in order. -/
def Words4.words {w : Nat} (x : Words4 w) : List (BitVec w) := [x.a, x.b, x.c, x.d]

/-- The words `H[0..4]` in order. -/
def Words5.words {w : Nat} (x : Words5 w) : List (BitVec w) := [x.a, x.b, x.c, x.d, x.e]

/-- The words `H[0..7]` in order. -/
def Words8.words {w : Nat} (x : Words8 w) : List (BitVec w) := [x.a, x.b, x.c, x.d, x.e, x.f, x.g, x.h]

/-- Word by word addition modulo `2^w`: the additive feedback `H'[i] = H[i] + working[i]` (R108). -/
def Words4.add {w : Nat} (x y : Words4 w) : Words4 w := ⟨x.a + y.a, x.b + y.b, x.c + y.c, x.d + y.d⟩

/-- The additive feedback of SHA-1 (R114). -/
def Words5.add {w : Nat} (x y : Words5 w) : Words5 w := ⟨x.a + y.a, x.b + y.b, x.c + y.c, x.d + y.d, x.e + y.e⟩

/-- The additive feedback of SHA-256 and SHA-512 (R122, R130). -/
def Words8.add {w : Nat} (x y : Words8 w) : Words8 w :=
  ⟨x.a + y.a, x.b + y.b, x.c + y.c, x.d + y.d, x.e + y.e, x.f + y.f, x.g + y.g, x.h + y.h⟩

/-- The initial value an algorithm starts a message with. -/
def iv : Alg → Chain
  -- R109
  | .md5 => .md5 ⟨0x67452301#32, 0xEFCDAB89#32, 0x98BADCFE#32, 0x10325476#32⟩
  -- R115
  | .sha1 => .sha1 ⟨0x67452301#32, 0xEFCDAB89#32, 0x98BADCFE#32, 0x10325476#32, 0xC3D2E1F0#32⟩
  -- R123
  | .sha256 => .sha256 ⟨0x6A09E667#32, 0xBB67AE85#32, 0x3C6EF372#32, 0xA54FF53A#32,
      0x510E527F#32, 0x9B05688C#32, 0x1F83D9AB#32, 0x5BE0CD19#32⟩
  -- R131
  | .sha512 => .sha512 ⟨0x6A09E667F3BCC908#64, 0xBB67AE8584CAA73B#64, 0x3C6EF372FE94F82B#64, 0xA54FF53A5F1D36F1#64,
      0x510E527FADE682D1#64, 0x9B05688C2B3E6C1F#64, 0x1F83D9ABFB41BD6B#64, 0x5BE0CD19137E2179#64⟩

/-- `Serialize(alg, H)`: the words in order, little-endian for MD5 and big-endian for the others (`41_streaming.md`
R158, `20_memory.md` R55). -/
def serialize : Chain → List Byte
  | .md5 h => h.words.flatMap fun x => toLE x 4
  | .sha1 h => h.words.flatMap fun x => toBE x 4
  | .sha256 h => h.words.flatMap fun x => toBE x 4
  | .sha512 h => h.words.flatMap fun x => toBE x 8

/-- `LenField(alg, LEN)`: the bit length in the algorithm's width and byte order (`41_streaming.md` R157,
`20_memory.md` R54). The 64-bit fields take it modulo `2^64`; the 128-bit field is exact (`90_conflicts.md` C3). -/
def lenField (alg : Alg) (len : Word64) : List Byte :=
  match alg with
  | .md5 => toLE (len * 8#64) 8
  | .sha1 => toBE (len * 8#64) 8
  | .sha256 => toBE (len * 8#64) 8
  | .sha512 => toBE (len.setWidth 128 * 8#128) 16

end Sys2Proof.Machine
end

