-- ==== Sys2Proof/Machine/Cores.lean ====
section
/-! DEFINITION. The compression cores (`40_compression.md`): pure functions from a chaining value and one full block to
a new chaining value (R100). How many rounds a cycle computes changes no result (R101). -/

namespace Sys2Proof.Machine

/-! ## Functions shared by the cores, on words of any width -/

/-- `Ch(x, y, z)` (R112, R119, R127). -/
def ch {w : Nat} (x y z : BitVec w) : BitVec w := (x &&& y) ^^^ (~~~x &&& z)

/-- `Parity(x, y, z)` (R112). -/
def parity {w : Nat} (x y z : BitVec w) : BitVec w := x ^^^ y ^^^ z

/-- `Maj(x, y, z)` (R112, R119, R127). -/
def maj {w : Nat} (x y z : BitVec w) : BitVec w := (x &&& y) ^^^ (x &&& z) ^^^ (y &&& z)

/-- The sixteen words of a block (`20_memory.md` R53): little-endian for MD5. -/
def wordsLE32 (blk : List Byte) : List Word32 := (List.range 16).map fun j => le32 blk (4 * j)

/-- The sixteen words of a block, big-endian: SHA-1 and SHA-256 (R110, R116). -/
def wordsBE32 (blk : List Byte) : List Word32 := (List.range 16).map fun j => be32 blk (4 * j)

/-- The sixteen words of a block, big-endian: SHA-512 (R124). -/
def wordsBE64 (blk : List Byte) : List Word64 := (List.range 16).map fun j => be64 blk (8 * j)

/-- A message schedule: `k` further words, each computed from the words before it. `next W` is the word that follows
`W`. -/
def extendSchedule {w : Nat} (next : List (BitVec w) → BitVec w) : Nat → List (BitVec w) → List (BitVec w)
  | 0, W => W
  | k + 1, W => extendSchedule next k (W ++ [next W])

/-- `W[t-k]` where `t` is the index of the word that follows `W`. -/
def back {w : Nat} (W : List (BitVec w)) (k : Nat) : BitVec w := W.getD (W.length - k) 0#w

/-! ## MD5 -/

/-- `F` (R104). -/
def md5F (x y z : Word32) : Word32 := (x &&& y) ||| (~~~x &&& z)

/-- `G` (R104). -/
def md5G (x y z : Word32) : Word32 := (x &&& z) ||| (y &&& ~~~z)

/-- `Hf`, the source's `H` (R104). -/
def md5H (x y z : Word32) : Word32 := x ^^^ y ^^^ z

/-- `I` (R104). -/
def md5I (x y z : Word32) : Word32 := y ^^^ (x ||| ~~~z)

/-- The mixing function of step `i` (R104, R108). -/
def md5Mix (i : Nat) (x y z : Word32) : Word32 :=
  if i < 16 then md5F x y z else if i < 32 then md5G x y z else if i < 48 then md5H x y z else md5I x y z

/-- `g(i)`, the message word that step `i` adds (R107). -/
def md5WordIndex (i : Nat) : Nat :=
  if i < 16 then i else if i < 32 then (5 * i + 1) % 16 else if i < 48 then (3 * i + 5) % 16 else 7 * i % 16

/-- Step `i` of MD5 on the working registers (R108). -/
def md5Step (M : List Word32) (r : Words4 32) (i : Nat) : Words4 32 :=
  let tmp := r.a + md5Mix i r.b r.c r.d + md5T.getD i 0#32 + M.getD (md5WordIndex i) 0#32
  ⟨r.d, r.b + rotl tmp (md5S i), r.b, r.c⟩

/-- `Compress_MD5(H, blk)` (R108). -/
@[irreducible] def compressMd5 (H : Words4 32) (blk : List Byte) : Words4 32 :=
  H.add ((List.range 64).foldl (md5Step (wordsLE32 blk)) H)

/-! ## SHA-1 -/

/-- `W[t]` of the SHA-1 schedule from the words before it (R111). -/
def sha1Next (W : List Word32) : Word32 := rotl (back W 3 ^^^ back W 8 ^^^ back W 14 ^^^ back W 16) 1

/-- `W[0..79]` of SHA-1 (R110, R111). -/
def sha1Schedule (blk : List Byte) : List Word32 := extendSchedule sha1Next 64 (wordsBE32 blk)

/-- The step function `f_t` (R112). -/
def sha1F (t : Nat) (x y z : Word32) : Word32 :=
  if t < 20 then ch x y z else if t < 40 then parity x y z else if t < 60 then maj x y z else parity x y z

/-- Step `t` of SHA-1 (R114). -/
def sha1Step (W : List Word32) (r : Words5 32) (t : Nat) : Words5 32 :=
  let tmp := rotl r.a 5 + sha1F t r.b r.c r.d + r.e + sha1K t + W.getD t 0#32
  ⟨tmp, r.a, rotl r.b 30, r.c, r.d⟩

/-- `Compress_SHA1(H, blk)` (R114). -/
@[irreducible] def compressSha1 (H : Words5 32) (blk : List Byte) : Words5 32 :=
  H.add ((List.range 80).foldl (sha1Step (sha1Schedule blk)) H)

/-! ## SHA-256 -/

/-- `Σ0` (R117). -/
def sha256BigSigma0 (x : Word32) : Word32 := rotr x 2 ^^^ rotr x 13 ^^^ rotr x 22

/-- `Σ1` (R117). -/
def sha256BigSigma1 (x : Word32) : Word32 := rotr x 6 ^^^ rotr x 11 ^^^ rotr x 25

/-- `σ0` (R118). -/
def sha256Sigma0 (x : Word32) : Word32 := rotr x 7 ^^^ rotr x 18 ^^^ shr x 3

/-- `σ1` (R118). -/
def sha256Sigma1 (x : Word32) : Word32 := rotr x 17 ^^^ rotr x 19 ^^^ shr x 10

/-- `W[t]` of the SHA-256 schedule (R120). -/
def sha256Next (W : List Word32) : Word32 :=
  sha256Sigma1 (back W 2) + back W 7 + sha256Sigma0 (back W 15) + back W 16

/-- `W[0..63]` of SHA-256 (R116, R120). -/
def sha256Schedule (blk : List Byte) : List Word32 := extendSchedule sha256Next 48 (wordsBE32 blk)

/-- Round `t` of SHA-2 with the big Sigma functions `S0` and `S1` (R122, R130): SHA-512 has "identical structural
shape to SHA-256". -/
def sha2Step {w : Nat} (S0 S1 : BitVec w → BitVec w) (K W : List (BitVec w)) (r : Words8 w) (t : Nat) : Words8 w :=
  let T1 := r.h + S1 r.e + ch r.e r.f r.g + K.getD t 0#w + W.getD t 0#w
  let T2 := S0 r.a + maj r.a r.b r.c
  ⟨T1 + T2, r.a, r.b, r.c, r.d + T1, r.e, r.f, r.g⟩

/-- `Compress_SHA256(H, blk)` (R122). -/
@[irreducible] def compressSha256 (H : Words8 32) (blk : List Byte) : Words8 32 :=
  H.add ((List.range 64).foldl (sha2Step sha256BigSigma0 sha256BigSigma1 sha256K (sha256Schedule blk)) H)

/-! ## SHA-512 -/

/-- `Σ0` (R125). -/
def sha512BigSigma0 (x : Word64) : Word64 := rotr x 28 ^^^ rotr x 34 ^^^ rotr x 39

/-- `Σ1` (R125). -/
def sha512BigSigma1 (x : Word64) : Word64 := rotr x 14 ^^^ rotr x 18 ^^^ rotr x 41

/-- `σ0` (R126). -/
def sha512Sigma0 (x : Word64) : Word64 := rotr x 1 ^^^ rotr x 8 ^^^ shr x 7

/-- `σ1` (R126). -/
def sha512Sigma1 (x : Word64) : Word64 := rotr x 19 ^^^ rotr x 61 ^^^ shr x 6

/-- `W[t]` of the SHA-512 schedule (R128). -/
def sha512Next (W : List Word64) : Word64 :=
  sha512Sigma1 (back W 2) + back W 7 + sha512Sigma0 (back W 15) + back W 16

/-- `W[0..79]` of SHA-512 (R124, R128). -/
def sha512Schedule (blk : List Byte) : List Word64 := extendSchedule sha512Next 64 (wordsBE64 blk)

/-- `Compress_SHA512(H, blk)` (R130). -/
@[irreducible] def compressSha512 (H : Words8 64) (blk : List Byte) : Words8 64 :=
  H.add ((List.range 80).foldl (sha2Step sha512BigSigma0 sha512BigSigma1 sha512K (sha512Schedule blk)) H)

/-! ## Dispatch -/

/-- `Compress(alg, H, blk)`: the core of the chaining value's algorithm (R102). -/
def compress (H : Chain) (blk : List Byte) : Chain :=
  match H with
  | .md5 h => .md5 (compressMd5 h blk)
  | .sha1 h => .sha1 (compressSha1 h blk)
  | .sha256 h => .sha256 (compressSha256 h blk)
  | .sha512 h => .sha512 (compressSha512 h blk)

end Sys2Proof.Machine
end

