-- ==== Sys2Proof/Machine/State.lean ====
section
/-! DEFINITION. The state of the block (`10_state.md`) and of the host's side of its interface, as plain data; the reasons
a step can stop; the state after reset (R39). -/

namespace Sys2Proof.Machine

/-- An internal byte space: one byte for each address 0 to 127 (`10_state.md` R37). Log entry 11. -/
abbrev Memory := List Byte

/-- The size of every internal byte space (R23, R30, R37). -/
def spaceSize : Nat := 128

/-- The byte space has its form: a byte for every address and nothing else, so that equal contents are equal data. -/
abbrev Memory.wf (m : Memory) : Prop := m.length = spaceSize

/-- The phase of a digest instance (R29). -/
inductive Phase where
  | absorb
  | final
  deriving DecidableEq, Repr

/-- A digest instance (R23). `ALG` is not a field of its own: it is the algorithm whose shape `H` has (log entry 12). -/
structure Instance where
  /-- The chaining value, and with it the algorithm tag (R21, R24). -/
  H : Chain
  /-- The partial-block buffer, 128 bytes of which `B(ALG)` are used (R25). -/
  BUF : Memory
  /-- The buffer occupancy, less than `B(ALG)` at every command boundary (R26). -/
  OCC : Nat
  /-- The bytes absorbed since the last INIT or RESET, modulo `2^64` (R27). -/
  LEN : Word64
  /-- Whether the result has been taken (R29). -/
  PHASE : Phase
  deriving DecidableEq, Repr

/-- The algorithm tag `ALG` of an instance (R21). -/
def Instance.ALG (x : Instance) : Alg := x.H.alg

/-- What the core is doing at a step boundary. It is idle exactly while `STATUS.BUSY` is 0 (R32, R33). -/
inductive Activity where
  /-- No command is in progress. -/
  | idle
  /-- A command was accepted and waits for its payload bytes (`70_reset_and_hazards.md` R255). -/
  | running (i : Instr)
  /-- A refused command waits for the `count` payload bytes it discards (`60_exceptions.md` R226). -/
  | discarding (e : CmdError) (count : Nat)
  /-- A command has run and its output is not all accepted (R256). -/
  | draining
  deriving DecidableEq, Repr

/-- A move of the host (`10_state.md` R20), the block's whole outside world. Log entry 6. -/
inductive HostMove where
  /-- Offer a command word on the command stream. -/
  | offerCommand (w : Word32)
  /-- Put bytes on the data-in stream. -/
  | offerBytes (bs : List Byte)
  /-- Stand ready to accept `n` further bytes of the data-out stream. -/
  | acceptBytes (n : Nat)
  /-- Read the `STATUS` word. -/
  | readStatus
  /-- Assert or release the reset input. -/
  | setReset (asserted : Bool)
  /-- Let the core make one move. -/
  | letCore
  deriving DecidableEq, Repr

/-- The state of the machine: the block, the host's side of its four streams and of its reset input, and the number of
free values drawn so far. -/
structure State where
  /-- The host-visible digest instance (R28). -/
  D : Instance
  /-- The HMAC engine's inner instance, scratch of DIGEST and HKEY (R28). -/
  I : Instance
  /-- The HMAC engine's outer instance (R28). -/
  O : Instance
  /-- The key register: the signing key with the inner pad applied (R30). -/
  K : Memory
  /-- The algorithm the key was derived for (R31). -/
  KALG : Alg
  /-- A key is stored (R31). -/
  KVALID : Bool
  /-- `STATUS.ERR`: a command has been refused since the last clear (R32). -/
  ERR : Bool
  /-- `STATUS.ERRCODE`: the code of the first of them (R32). -/
  ERRCODE : BitVec 2
  /-- The command in progress; `STATUS.BUSY` shows whether there is one (R33). -/
  activity : Activity
  /-- The data-in stream inside the block, oldest byte first (R37). -/
  din : List Byte
  /-- The data-out stream inside the block: bytes written and not yet accepted, oldest first (R37). -/
  dout : List Byte
  /-- The command stream: words offered and not yet accepted, oldest first (R34). -/
  cmds : List Word32
  /-- The reset input is asserted (`70_reset_and_hazards.md` R250). -/
  rst : Bool
  /-- How many further output bytes the host stands ready to accept. Log entry 7. -/
  credit : Nat
  /-- The output bytes the host has accepted, oldest first. Log entry 7. -/
  taken : List Byte
  /-- The last `STATUS` word the host has read. Log entry 9. -/
  sampled : Word32
  /-- The host's coming moves, in order. Log entry 6. -/
  script : List HostMove
  /-- The model's own field: how many draws of free values have been made. Log entry 1. -/
  draws : Nat
  deriving DecidableEq, Repr

/-- Why a step stops with a fault. There is no constructor: the block has no fault state
(`93_implementation_defined.md`: "`fault`: not used"; `60_exceptions.md` R220), so no one raises a fault. Safe. -/
inductive Fault where
  deriving DecidableEq, Repr

/-- Why a step is refused. -/
inductive Refusal where
  /-- An instruction without a meaning in this model. No arm of `exec` raises it: every row of the opcode table has its
  meaning. Safe. -/
  | notModelled (mnemonic : String)
  deriving DecidableEq, Repr

/-- An instance just created: initial chaining value, nothing absorbed (R39, `41_streaming.md` R150), here with a buffer
of zeros, which the spec leaves unspecified (log entry 2). -/
def freshInstance (alg : Alg) : Instance :=
  { H := iv alg, BUF := zeros spaceSize, OCC := 0, LEN := 0#64, PHASE := .absorb }

/-- The machine right after reset (R39, `70_reset_and_hazards.md` R250). `I`, `O` and `D.BUF` are unspecified there and
hold the values of log entry 2; the host has offered nothing (log entries 6, 7, 8, 9). -/
def State.reset : State where
  D := freshInstance .md5
  I := freshInstance .md5
  O := freshInstance .md5
  K := zeros spaceSize
  KALG := .md5
  KVALID := false
  ERR := false
  ERRCODE := 0b00#2
  activity := .idle
  din := []
  dout := []
  cmds := []
  rst := false
  credit := 0
  taken := []
  sampled := 0#32
  script := []
  draws := 0

end Sys2Proof.Machine
end

