-- ==== Sys2Proof/Machine/Flags.lean ====
section
/-! DEFINITION. The `STATUS` word (`10_state.md` R32) and the error record (`60_exceptions.md` R221, R225, R227). The
block has no other flags (R35). -/

namespace Sys2Proof.Machine

/-- `STATUS.BUSY`: a command word has been accepted and its command has not completed (R33). -/
def State.busy (s : State) : Bool := decide (s.activity ≠ .idle)

/-- `STATUS.DFIN`: `D.PHASE = FINAL` (R32). -/
def State.dfin (s : State) : Bool := decide (s.D.PHASE = .final)

/-- The `STATUS` word the core drives: reserved bits 0, then DFIN, DALG, KALG, KVALID, ERRCODE, ERR, BUSY (R32). -/
def State.status (s : State) : Word32 :=
  0#22 ++ BitVec.ofBool s.dfin ++ s.D.ALG.code ++ s.KALG.code ++ BitVec.ofBool s.KVALID ++ s.ERRCODE ++
    BitVec.ofBool s.ERR ++ BitVec.ofBool s.busy

/-- The code an error shows in `STATUS.ERRCODE` (`60_exceptions.md` R221). -/
def CmdError.code : CmdError → BitVec 2
  | .illop => 0b01#2
  | .field => 0b10#2
  | .nokey => 0b11#2

/-- `CheckCommand(w)`: the first error that applies, from the word and `KVALID` alone (R225). -/
def checkCommand (w : Word32) (s : State) : Option CmdError :=
  match decode w with
  | .error e => some e
  | .ok (.hsign _) => if s.KVALID then none else some .nokey
  | .ok _ => none

/-- The error record set to `err` and `code`. -/
def State.setError (err : Bool) (code : BitVec 2) (s : State) : State := { s with ERR := err, ERRCODE := code }

/-- `RecordError(code)`: the first error since the last clear is kept (R227). -/
def recordError (e : CmdError) (s : State) : State := if s.ERR then s else s.setError true (CmdError.code e)

/-! ## Sampling while a command runs -/

/-- The bits of `STATUS.ERR` and `STATUS.ERRCODE`. -/
def errBits : Word32 := 0x0000000E#32

/-- The bits of `STATUS.KVALID` and `STATUS.KALG`. -/
def keyBits : Word32 := 0x00000070#32

/-- The bits of `STATUS.DALG`. -/
def dalgBits : Word32 := 0x00000180#32

/-- The bit of `STATUS.DFIN`. -/
def dfinBit : Word32 := 0x00000200#32

/-- The `STATUS` fields a command writes ("Status written" of `42_commands.md` R181 to R191); an HSIGN that is not
refused writes none. -/
def statusWritten : Instr → Word32
  | .init _ => dalgBits ||| dfinBit
  | .reset => dfinBit
  | .update _ => 0#32
  | .result => dfinBit
  | .digest _ _ => 0#32
  | .hkey _ _ => keyBits
  | .hsign _ => 0#32
  | .clrerr => errBits

/-- The `STATUS` fields that are free in a sample while a command is in progress (`70_reset_and_hazards.md` R258: fields the
running command writes may change, and `STATUS` is not meaningful). DESIGN CHOICE, log entry 9, safe: a draining command
leaves `DFIN` free whichever command it is, though DIGEST and HSIGN write no field, and a refused command leaves `ERR`
and `ERRCODE` free also where an error is on record already. -/
def unstableBits : Activity → Word32
  | .idle => 0#32
  | .running i => statusWritten i
  | .discarding _ _ => errBits
  | .draining => dfinBit

/-- A `STATUS` word the host can sample: the driven word, in which, while a command is in progress, the fields of
`unstableBits` are free (R258). Log entry 9. -/
def statusSample (s : State) : Word32 :=
  let unstable := unstableBits s.activity
  if s.busy then (s.status &&& ~~~unstable) ||| (Config.free .status s.draws 0 32 &&& unstable) else s.status

end Sys2Proof.Machine
end

