-- ==== Sys2Proof/Machine/Ops.lean ====
section
/-! DEFINITION. The shared operations on the state: byte spaces, streams, free values, the named updates, and refusing a
command, which is all this block has for an exception (`60_exceptions.md` R220). -/

namespace Sys2Proof.Machine

/-- The outcome of a step of this machine. -/
abbrev Result := Host.Outcome State Fault Refusal

/-! ## Byte spaces (`00_scope.md` R10) -/

/-- `MemRead(space, addr, n)`. -/
def memRead (m : Memory) (addr n : Nat) : List Byte := (m.drop addr).take n

/-- `MemWrite(space, addr, n, v)`, with `n` the length of `v`. -/
def memWrite (m : Memory) (addr : Nat) (v : List Byte) : Memory := m.take addr ++ v ++ m.drop (addr + v.length)

/-! ## Named updates -/

/-- The state with another activity. -/
def State.setActivity (a : Activity) (s : State) : State := { s with activity := a }

/-- The state with another host-visible instance. -/
def State.setD (x : Instance) (s : State) : State := { s with D := x }

/-- The state with another inner instance. -/
def State.setI (x : Instance) (s : State) : State := { s with I := x }

/-- The state with another outer instance. -/
def State.setO (x : Instance) (s : State) : State := { s with O := x }

/-- The state with a stored key (`42_commands.md` R187). -/
def State.setKey (k : Memory) (alg : Alg) (s : State) : State := { s with K := k, KALG := alg, KVALID := true }

/-- `k` draws of free values have been made. -/
def State.drawn (k : Nat) (s : State) : State := { s with draws := s.draws + k }

/-! ## Streams -/

/-- The data-in stream after `DinTake(n)`, which removes the next `n` bytes (R10, `20_memory.md` R51). The bytes taken
are `s.din.take n`. -/
def State.dropInput (n : Nat) (s : State) : State := { s with din := s.din.drop n }

/-- The command completes: `STATUS.BUSY <- 0` (`42_commands.md` R180). -/
def State.complete (s : State) : State := s.setActivity .idle

/-- The host accepts as many bytes of the data-out stream as it stands ready for, oldest first; the command completes
when none is left (`10_state.md` R33, `70_reset_and_hazards.md` R256). Log entry 7. -/
def State.drain (s : State) : State :=
  { s with
    taken := s.taken ++ s.dout.take s.credit
    dout := s.dout.drop s.credit
    credit := s.credit - s.dout.length
    activity := if s.dout.length ≤ s.credit then .idle else .draining }

/-- `DoutPut(out)` as the last action of a command (R10, `20_memory.md` R52): the bytes join the data-out stream and the
command completes once the host has accepted them. -/
def State.emit (out : List Byte) (s : State) : State := State.drain { s with dout := s.dout ++ out }

/-! ## Free values (`93_implementation_defined.md`, treatment `any value`) -/

/-- Bytes `start` to `start + n - 1` of a draw. -/
def freeBytes (kind : Config.FreeKind) (draw start n : Nat) : List Byte :=
  (List.range n).map fun j => Config.free kind draw (start + j) 8

/-- Any chaining value of the given algorithm. -/
def freeChain (alg : Alg) (draw : Nat) : Chain :=
  let x := fun (w j : Nat) => Config.free .chain draw j w
  match alg with
  | .md5 => .md5 ⟨x 32 0, x 32 1, x 32 2, x 32 3⟩
  | .sha1 => .sha1 ⟨x 32 0, x 32 1, x 32 2, x 32 3, x 32 4⟩
  | .sha256 => .sha256 ⟨x 32 0, x 32 1, x 32 2, x 32 3, x 32 4, x 32 5, x 32 6, x 32 7⟩
  | .sha512 => .sha512 ⟨x 64 0, x 64 1, x 64 2, x 64 3, x 64 4, x 64 5, x 64 6, x 64 7⟩

/-- Any occupancy within `0..B-1` (`41_streaming.md` R161). -/
def freeOcc (alg : Alg) (draw : Nat) : Nat := (Config.free .occ draw 0 7).toNat % alg.B

/-- An instance of the given algorithm and phase whose other fields have any value. -/
def unspecifiedFields (alg : Alg) (phase : Phase) (draw : Nat) : Instance :=
  { H := freeChain alg draw
    BUF := freeBytes .buf draw 0 spaceSize
    OCC := freeOcc alg draw
    LEN := Config.free .len draw 0 64
    PHASE := phase }

/-- An instance after misuse: `H`, `BUF`, `OCC` and `LEN` unspecified, `PHASE` and `ALG` kept (R161, U1). -/
def misused (draw : Nat) (x : Instance) : Instance := unspecifiedFields x.ALG x.PHASE draw

/-- An instance with every field unspecified: `I` or `O` after a command that used it (`10_state.md` R28, U7). -/
def unspecifiedInstance (draw : Nat) : Instance :=
  unspecifiedFields (Alg.ofCode (Config.free .alg draw 0 2))
    (if Config.free .phase draw 0 1 = 1#1 then .final else .absorb) draw

/-- The bytes of the buffer at and after `OCC` have any value (`10_state.md` R25, U6). Log entry 3. -/
def forgetStale (draw : Nat) (x : Instance) : Instance :=
  { x with BUF := x.BUF.take x.OCC ++ freeBytes .buf draw x.OCC (spaceSize - x.OCC) }

/-! ## Refusing a command (`60_exceptions.md` R226, R227) -/

/-- The effect of a refused command: it takes and discards its payload bytes, waiting for them where they have not all
arrived, records its error, and completes; it writes no output and changes nothing else (R226). There is no handler and
no return (R228): the next command word is accepted as usual. -/
def refuseCommand (e : CmdError) (count : Nat) (s : State) : Result :=
  if s.din.length < count then .next (s.setActivity (.discarding e count))
  else .next (recordError e (s.dropInput count)).complete

end Sys2Proof.Machine
end

