-- ==== Sys2Proof/Machine/Operands.lean ====
section
/-! DEFINITION. The operand of a command that is not in its word: the payload (`30_encoding.md` R70, `20_memory.md`
R51). -/

namespace Sys2Proof.Machine

/-- Run `effect` on the payload of command `i`: the next `count` bytes of the data-in stream, which it removes. Where they
have not all arrived the command waits for them (`70_reset_and_hazards.md` R255): the block is stuck with `BUSY = 1`,
not faulted, until the host supplies them. Log entry 5. -/
def withPayload (i : Instr) (s : State) (effect : List Byte → State → State) : Result :=
  if s.din.length < i.count then .next (s.setActivity (.running i))
  else .next (effect (s.din.take i.count) (s.dropInput i.count))

end Sys2Proof.Machine
end

