-- ==== Sys2Proof/Machine/Streaming.lean ====
section
/-! DEFINITION. The streaming, padding and finalization engine on one digest instance (`41_streaming.md`). -/

namespace Sys2Proof.Machine

/-! ## Initialisation -/

/-- `InitInstance(X, alg)`: `BUF` is not written (R150). -/
def initInstance (x : Instance) (alg : Alg) : Instance :=
  { x with H := iv alg, OCC := 0, LEN := 0#64, PHASE := .absorb }

/-! ## Absorbing input -/

/-- The chaining value after compressing the first `k` blocks of `s`, and the bytes after them: part (b) of R151. -/
def absorbBlocks (B : Nat) : Nat → Chain → List Byte → Chain × List Byte
  | 0, H, s => (H, s)
  | k + 1, H, s => absorbBlocks B k (compress H (s.take B)) (s.drop B)

/-- Parts (b) and (c) of R151, with an empty buffer: the whole blocks of `s` go to the core and the tail to the
buffer. -/
def absorbWhole (x : Instance) (s : List Byte) : Instance :=
  let r := absorbBlocks x.ALG.B (s.length / x.ALG.B) x.H s
  { x with H := r.1, BUF := memWrite x.BUF 0 r.2, OCC := r.2.length }

/-- The core run on the filled buffer. -/
def compressBuffer (x : Instance) : Instance := { x with H := compress x.H (memRead x.BUF 0 x.ALG.B) }

/-- Part (a) of R151: top up a partial buffer with `k` bytes of `s`, and go on with the rest where that fills it. -/
def absorbPartial (x : Instance) (s : List Byte) : Instance :=
  let k := min (x.ALG.B - x.OCC) s.length
  let y := { x with BUF := memWrite x.BUF x.OCC (s.take k), OCC := x.OCC + k }
  if y.OCC < x.ALG.B then y else absorbWhole { compressBuffer y with OCC := 0 } (s.drop k)

/-- `Absorb(X, s)` for `X.PHASE = ABSORB` (R151, R152): no-op on empty input; else the length counter grows by the whole
input length, modulo `2^64`, and the bytes are absorbed. -/
def absorb (x : Instance) (s : List Byte) : Instance :=
  if s.length = 0 then x
  else
    let y := { x with LEN := x.LEN + BitVec.ofNat 64 s.length }
    if 0 < y.OCC then absorbPartial y s else absorbWhole y s

/-- The block-boundary detector absorbing one byte (R153). -/
def absorbByte (x : Instance) (b : Byte) : Instance :=
  let y := { x with BUF := memWrite x.BUF x.OCC [b], OCC := x.OCC + 1, LEN := x.LEN + 1#64 }
  if y.OCC = x.ALG.B then { compressBuffer y with OCC := 0 } else y

/-- The byte-by-byte procedure of R153, which hardware may use in place of `absorb`. -/
def absorbBytewise (x : Instance) (s : List Byte) : Instance := s.foldl absorbByte x

/-! ## Finalization -/

/-- One byte of padding at position `pos`: a filled buffer is compressed and the position goes to 0 (R155). -/
def padByte (b : Byte) (p : Instance × Nat) : Instance × Nat :=
  let y := { p.1 with BUF := memWrite p.1.BUF p.2 [b] }
  if p.2 + 1 = y.ALG.B then (compressBuffer y, 0) else (y, p.2 + 1)

/-- Step 2 of R155: zero bytes until the position is `target`; `fuel` bounds the number of bytes, of which fewer than
`B` are ever needed. -/
def zeroFill (target : Nat) : Nat → Instance × Nat → Instance × Nat
  | 0, p => p
  | fuel + 1, p => if p.2 = target then p else zeroFill target fuel (padByte 0x00#8 p)

/-- `Finalize(X)` for `X.PHASE = ABSORB` (R155): marker, zero fill, length field, last compression. The output is the
serialized chaining value; after it the occupancy is 0 (R159) and the phase FINAL (R160). -/
def finalize (x : Instance) : List Byte × Instance :=
  let target := x.ALG.B - x.ALG.LF
  let y := (zeroFill target x.ALG.B (padByte 0x80#8 (x, x.OCC))).1
  let z := compressBuffer { y with BUF := memWrite y.BUF target (lenField x.ALG x.LEN) }
  (serialize z.H, { z with OCC := 0, PHASE := .final })

/-! ## Whole messages -/

/-- `Digest(alg, s)` computed on instance `x` (R163). By R156 nothing of `x` reaches the result. -/
def digestOn (x : Instance) (alg : Alg) (s : List Byte) : List Byte := (finalize (absorb (initInstance x alg) s)).1

/-- `Digest(alg, s)` (R163). -/
def digest (alg : Alg) (s : List Byte) : List Byte := digestOn (freshInstance alg) alg s

end Sys2Proof.Machine
end

