-- ==== Sys2Proof/Machine/DigestCommands.lean ====
section
/-! DEFINITION. The digest family: INIT, RESET, UPDATE, RESULT and the one-shot DIGEST (`42_commands.md` R181 to
R185). -/

namespace Sys2Proof.Machine

/-- The host-visible instance becomes `x`, whose stale bytes have any value (`10_state.md` R25, log entry 3). `I` and `O`,
unspecified between commands (R28), keep what they hold: DESIGN CHOICE, log entry 13. -/
def replaceD (x : Instance) (s : State) : State := (s.setD (forgetStale s.draws x)).drawn 1

/-- INIT: `InitInstance(D, alg)` (R181). -/
def execInit (alg : Alg) (s : State) : Result := .next (replaceD (initInstance s.D alg) s).complete

/-- RESET: `InitInstance(D, D.ALG)` (R182). -/
def execReset (s : State) : Result := .next (replaceD (initInstance s.D s.D.ALG) s).complete

/-- UPDATE's effect on the payload `p`: `Absorb(D, p)` in ABSORB, where an empty payload changes nothing; misuse in
FINAL (R183, `41_streaming.md` R161; log entry 10). It keeps `I` and `O` (DESIGN CHOICE, log entry 13). -/
def updateD (p : List Byte) (s : State) : State :=
  match s.D.PHASE with
  | .absorb => if p.length = 0 then s else replaceD (absorb s.D p) s
  | .final => (s.setD (misused s.draws s.D)).drawn 1

/-- UPDATE (R183). -/
def execUpdate (count : Nat) (s : State) : Result :=
  withPayload (.update count) s fun p s => (updateD p s).complete

/-- RESULT: `Finalize(D)` in ABSORB; in FINAL any `N(D.ALG)` bytes, and `D` misused (R184, `41_streaming.md`
R161). It keeps `I` and `O` (DESIGN CHOICE, log entry 13). -/
def execResult (s : State) : Result :=
  match s.D.PHASE with
  | .absorb => .next ((replaceD (finalize s.D).2 s).emit (finalize s.D).1)
  | .final => .next (((s.setD (misused s.draws s.D)).drawn 1).emit (freeBytes .out s.draws 0 s.D.ALG.N))

/-- DIGEST: the digest of the payload, computed on `I`, which is left unspecified (R185). It keeps `O` (DESIGN
CHOICE, log entry 13). -/
def execDigest (alg : Alg) (count : Nat) (s : State) : Result :=
  withPayload (.digest alg count) s fun p s =>
    ((s.setI (unspecifiedInstance s.draws)).drawn 1).emit (digestOn s.I alg p)

end Sys2Proof.Machine
end

