-- ==== Sys2Proof/Machine/ErrorCommands.lean ====
section
/-! DEFINITION. The error family: CLRERR (`42_commands.md` R191). -/

namespace Sys2Proof.Machine

/-- CLRERR: `STATUS.ERR <- 0; STATUS.ERRCODE <- 00` (R191). -/
def execClrerr (s : State) : Result := .next (s.setError false 0b00#2).complete

end Sys2Proof.Machine
end

