-- ==== Sys2Proof/Machine/Hmac.lean ====
section
/-! DEFINITION. The HMAC engine: key derivation and signing (`42_commands.md` R186, R188). -/

namespace Sys2Proof.Machine

/-- The inner pad byte (`00_scope.md` R12). -/
def innerPad : Byte := 0x36#8

/-- The outer pad byte (R12). -/
def outerPad : Byte := 0x5C#8

/-- `DeriveKey(alg, secret)`, `B(alg)` bytes: a secret longer than a block is hashed first, on instance `x` (R186). -/
def deriveKey (x : Instance) (alg : Alg) (secret : List Byte) : List Byte :=
  if secret.length ≤ alg.B then secret ++ zeros (alg.B - secret.length)
  else digestOn x alg secret ++ zeros (alg.B - alg.N)

/-- The contents of the key register for a derived key: the inner pad applied once, zeros above it (R187, `10_state.md`
R30). -/
def keyRegister (alg : Alg) (k : List Byte) (old : Memory) : Memory :=
  let m := memWrite old 0 (xorBytes k innerPad)
  if alg.B < spaceSize then memWrite m alg.B (zeros (spaceSize - alg.B)) else m

/-- `Sign(msg)` under the stored key `K` of algorithm `alg`, on the instances `x` (inner) and `y` (outer) (R188). The
second XOR acts on the stored inner-padded key, so that the outer pad is `0x5C` (`90_conflicts.md` C1). Nothing is
written to `K` (R190). -/
def sign (x y : Instance) (K : Memory) (alg : Alg) (msg : List Byte) : List Byte :=
  let padded := memRead K 0 alg.B
  let inner := (finalize (absorb (absorb (initInstance x alg) padded) msg)).1
  (finalize (absorb (absorb (initInstance y alg) (xorBytes padded (innerPad ^^^ outerPad))) inner)).1

end Sys2Proof.Machine
end

