-- ==== Sys2Proof/Machine/KeyCommands.lean ====
section
/-! DEFINITION. The HMAC family: HKEY and HSIGN (`42_commands.md` R187, R189). -/

namespace Sys2Proof.Machine

/-- HKEY: the key register holds the key derived from the payload, with the inner pad applied; `I` is left unspecified
(R187). It keeps `O` (DESIGN CHOICE, log entry 13). -/
def execHkey (alg : Alg) (count : Nat) (s : State) : Result :=
  withPayload (.hkey alg count) s fun p s =>
    (((s.setKey (keyRegister alg (deriveKey s.I alg p) s.K) alg).setI (unspecifiedInstance s.draws)).drawn 1).complete

/-- HSIGN: the MAC of the payload under the stored key; `I` and `O` are left unspecified (R189). With no key it is refused
with `E_NOKEY` (`60_exceptions.md` R224), which is decided before any payload byte is taken (R225). -/
def execHsign (count : Nat) (s : State) : Result :=
  if s.KVALID then
    withPayload (.hsign count) s fun p s =>
      (((s.setI (unspecifiedInstance s.draws)).setO (unspecifiedInstance (s.draws + 1))).drawn 2).emit
        (sign s.I s.O s.K s.KALG p)
  else refuseCommand .nokey count s

end Sys2Proof.Machine
end

