-- ==== Sys2Proof/Machine/Dispatch.lean ====
section
/-! DEFINITION. The meaning of every command (`42_commands.md` R180), one arm for each. -/

namespace Sys2Proof.Machine

def exec (i : Instr) (s : State) : Host.Outcome State Fault Refusal :=
  match i with
  | .init alg => Sys2Proof.Machine.execInit alg s
  | .reset => Sys2Proof.Machine.execReset s
  | .update count => Sys2Proof.Machine.execUpdate count s
  | .result => Sys2Proof.Machine.execResult s
  | .digest alg count => Sys2Proof.Machine.execDigest alg count s
  | .hkey alg count => Sys2Proof.Machine.execHkey alg count s
  | .hsign count => Sys2Proof.Machine.execHsign count s
  | .clrerr => Sys2Proof.Machine.execClrerr s

end Sys2Proof.Machine
end

