-- ==== Sys2Proof/Machine/Execute.lean ====
section
/-! DEFINITION. One move of the core and one move of the host (`10_state.md` R20). -/

namespace Sys2Proof.Machine

/-! ## The core -/

/-- `ExecuteCommand(w)` for a command word just accepted (`42_commands.md` R180): a word that stands for no command is
refused with its error. -/
def executeCommand (w : Word32) (s : State) : Result :=
  match decode w with
  | .ok i => exec i s
  | .error e => refuseCommand e (countField w) s

/-- A block reset (`70_reset_and_hazards.md` R250, R251, R252): all state of the block takes its reset value, whatever
command was in progress. What is the host's own stays: the words it offers, the reset input, its acceptance, what it has
received and read, its coming moves (log entry 8). -/
def State.resetBlock (s : State) : State :=
  { State.reset with
    cmds := s.cmds
    rst := s.rst
    credit := s.credit
    taken := s.taken
    sampled := s.sampled
    script := s.script
    draws := s.draws }

/-- One move of the core. In reset it holds its reset state. An idle core accepts the next command word and runs it, or
holds its state where none is offered (`60_exceptions.md` R238). A core with a command in progress accepts no word
(`70_reset_and_hazards.md` R257) and goes on with that command. -/
def coreStep (s : State) : Result :=
  if s.rst then .next s.resetBlock
  else
    match s.activity with
    | .idle =>
      match s.cmds with
      | [] => .next s
      | w :: rest => executeCommand w { s with cmds := rest }
    | .running i => exec i s
    | .discarding e count => refuseCommand e count s
    | .draining => .next s.drain

/-! ## The host -/

/-- The state after a move of the host at its streams, at `STATUS` or at the reset input (log entries 6 to 9). Reading
`STATUS` has no side effect on the block (`20_memory.md` R59). Both edges of the reset input reset the block (R250,
R251). Letting the core move is no move of the host's own. -/
def hostMove (m : HostMove) (s : State) : State :=
  match m with
  | .offerCommand w => { s with cmds := s.cmds ++ [w] }
  | .offerBytes bs => { s with din := s.din ++ bs }
  | .acceptBytes n => { s with credit := s.credit + n }
  | .readStatus => ({ s with sampled := statusSample s }).drawn 1
  | .setReset asserted => if asserted || s.rst then { s.resetBlock with rst := asserted } else s
  | .letCore => s

/-- One move of the machine: the host's next move, or the core's where the host lets it move or has no move left. -/
def machineStep (s : State) : Result :=
  match s.script with
  | [] => coreStep s
  | .letCore :: rest => coreStep { s with script := rest }
  | m :: rest => .next (hostMove m { s with script := rest })

/-- The state in which the next move accepts command word `w`: the host lets the core move, reset is released, no command
is in progress, and `w` is the next word of the command stream. -/
def State.offering (w : Word32) (s : State) : State :=
  { s with script := [], rst := false, activity := .idle, cmds := w :: s.cmds }

end Sys2Proof.Machine
end

