-- ==== Sys2Proof/Machine/Step.lean ====
section
/-! DEFINITION. The step of the machine, and a command word placed where the next step accepts it. -/

namespace Sys2Proof.Machine

/-- One step: one move of the host or of the core (`10_state.md` R20). -/
def step (s : State) : Host.Outcome State Fault Refusal := machineStep s

/-- The state `s` with the command word of bits `w` offered as the next one, so that the next step accepts and runs it.
It stands for the host's move of offering a command (log entry 17). -/
def State.withFetchWord (s : State) (nbits w : Nat) : State := s.offering (BitVec.ofNat 32 (w % 2 ^ nbits))

end Sys2Proof.Machine
end

