-- ==== Sys2Proof/Machine/Assembler.lean ====
section
/-! DEFINITION. The assembly language and the pseudo-commands HMAC and HASH (`30_encoding.md` R81, R82, R83): from a line
of text to the command words and payload bytes that the host offers. Where the spec leaves the spelling open, log
entry 16. -/

namespace Sys2Proof.Machine

/-- A line of assembly (R81 to R83), its byte operands already computed. -/
inductive AsmLine where
  | init (alg : Alg)
  | reset
  | update (bytes : List Byte)
  | result
  | digest (alg : Alg) (bytes : List Byte)
  | hkey (alg : Alg) (bytes : List Byte)
  | hsign (bytes : List Byte)
  | clrerr
  /-- `.word`: a raw command word and a raw payload. -/
  | word (w : Word32) (bytes : List Byte)
  /-- The pseudo-command HMAC (R82). -/
  | hmac (alg : Alg) (secret message : List Byte)
  /-- The pseudo-command HASH (R83). -/
  | hash (alg : Alg) (bytes : List Byte)
  deriving DecidableEq, Repr

/-- A command word and the payload bytes that follow it (R70). -/
abbrev Transaction := Word32 × List Byte

/-! ## From lines to transactions -/

/-- The longest payload of one command (R74). -/
def maxPayload : Nat := 16777215

/-- One command word with its payload; a payload that does not fit one command is an assembler error (R81). -/
def assembleWord (w : Word32) (payload : List Byte) : Option (List Transaction) :=
  if payload.length ≤ maxPayload then some [(w, payload)] else none

/-- One command with its payload (R81). -/
def assembleCommand (i : Instr) (payload : List Byte) : Option (List Transaction) := assembleWord (encode i) payload

/-- Consecutive pieces of at most `size` bytes; `fuel` bounds their number. One empty piece where there is no byte (R83).
DESIGN CHOICE, log entry 16: each piece but the last has exactly `size` bytes, and there is one piece where all bytes fit;
R83 says only that a piece has at most that many. -/
def piecesOf (size : Nat) : Nat → List Byte → List (List Byte)
  | 0, bs => [bs]
  | fuel + 1, bs => if bs.length ≤ size then [bs] else bs.take size :: piecesOf size fuel (bs.drop size)

/-- The pieces of a message in UPDATE commands (R83). -/
def updatePieces (bs : List Byte) : List (List Byte) := piecesOf maxPayload (bs.length / maxPayload) bs

/-- One UPDATE for each piece of `bs` (R83). That an UPDATE line too long for one command is split in the same way is the
model's choice, log entry 16: R81 says only that it is no error. -/
def assembleUpdates (bs : List Byte) : List Transaction :=
  (updatePieces bs).map fun p => (encode (.update p.length), p)

/-- The transactions of a line, or none where the line is an assembler error (R81, R82, R83). -/
def assemble : AsmLine → Option (List Transaction)
  | .init alg => assembleCommand (.init alg) []
  | .reset => assembleCommand .reset []
  | .update bs => some (assembleUpdates bs)
  | .result => assembleCommand .result []
  | .digest alg bs => assembleCommand (.digest alg bs.length) bs
  | .hkey alg bs => assembleCommand (.hkey alg bs.length) bs
  | .hsign bs => assembleCommand (.hsign bs.length) bs
  | .clrerr => assembleCommand .clrerr []
  | .word w bs => assembleWord w bs
  | .hmac alg secret message => do
    let key ← assembleCommand (.hkey alg secret.length) secret
    let sig ← assembleCommand (.hsign message.length) message
    pure (key ++ sig)
  | .hash alg bs => some ((encode (.init alg), []) :: assembleUpdates bs ++ [(encode .result, [])])

/-- The moves by which the host offers a transaction (R81): the word on the command stream, the bytes on the data-in
stream. -/
def offerTransaction (t : Transaction) : List HostMove := [.offerCommand t.1, .offerBytes t.2]

/-! ## From text to lines -/

/-- A token of a line. -/
inductive Token where
  | word (cs : List Char)
  | bytes (bs : List Byte)
  | star
  | plus
  | comma
  deriving DecidableEq, Repr

/-- Where the reader of a line stands: in plain text, in a quoted string, in a hex literal; each with what it has read,
last first. -/
inductive LexMode where
  | plain (acc : List Char)
  | quoted (acc : List Byte)
  | hex (acc : List Char)
  deriving DecidableEq, Repr

/-- The value of a hexadecimal digit. -/
def hexDigit (c : Char) : Option Nat :=
  let v := c.toNat
  if 48 ≤ v ∧ v ≤ 57 then some (v - 48)
  else if 65 ≤ v ∧ v ≤ 70 then some (v - 55)
  else if 97 ≤ v ∧ v ≤ 102 then some (v - 87)
  else none

/-- The value of a decimal digit. -/
def decDigit (c : Char) : Option Nat := if 48 ≤ c.toNat ∧ c.toNat ≤ 57 then some (c.toNat - 48) else none

/-- A numeral in base `base`, at least one digit. -/
def numeral (base : Nat) (digit : Char → Option Nat) (cs : List Char) : Option Nat :=
  if cs = [] then none else cs.foldl (fun acc c => do pure (base * (← acc) + (← digit c))) (some 0)

/-- The bytes of a hex literal, two digits each (R81). DESIGN CHOICE, log entry 16: a literal without digits is the empty
sequence, and one with an odd number of digits is no literal. -/
def hexLiteral : List Char → Option (List Byte)
  | [] => some []
  | a :: b :: rest => do pure (BitVec.ofNat 8 (16 * (← hexDigit a) + (← hexDigit b)) :: (← hexLiteral rest))
  | [_] => none

/-- The token of the plain text read so far, if there is any. -/
def plainToken (acc : List Char) : List Token := if acc = [] then [] else [.word acc.reverse]

/-- The tokens of a line; blanks separate them, and a semicolon begins a comment. Characters are given by their codes:
34 is the double quote, 39 the single quote. -/
def tokens : LexMode → List Char → Option (List Token)
  | .plain acc, [] => some (plainToken acc)
  | .quoted _, [] => none
  | .hex _, [] => none
  | .plain acc, c :: cs =>
    if c.toNat = 34 then (tokens (.quoted []) cs).map (plainToken acc ++ ·)
    else if c.toNat = 39 then (if acc = ['h'] then tokens (.hex []) cs else none)
    else if c = ' ' ∨ c.toNat = 9 then (tokens (.plain []) cs).map (plainToken acc ++ ·)
    else if c = ';' then some (plainToken acc)
    else if c = '*' then (tokens (.plain []) cs).map (plainToken acc ++ .star :: ·)
    else if c = '+' then (tokens (.plain []) cs).map (plainToken acc ++ .plus :: ·)
    else if c = ',' then (tokens (.plain []) cs).map (plainToken acc ++ .comma :: ·)
    else tokens (.plain (c :: acc)) cs
  | .quoted acc, c :: cs =>
    if c.toNat = 34 then (tokens (.plain []) cs).map (.bytes acc.reverse :: ·)
    else if c.toNat < 128 then tokens (.quoted (BitVec.ofNat 8 c.toNat :: acc)) cs
    else none
  | .hex acc, c :: cs =>
    if c.toNat = 39 then do pure (.bytes (← hexLiteral acc.reverse) :: (← tokens (.plain []) cs))
    else tokens (.hex (c :: acc)) cs

/-- `<bytes>`: a concatenation with `+` of strings, hex literals and repetitions (R81); the whole token list.
DESIGN CHOICE, log entry 16: a repetition count of 0 is legal and gives no byte, and a string can be repeated too. -/
def bytesOperand : List Token → Option (List Byte)
  | [.bytes bs] => some bs
  | .bytes bs :: .plus :: rest => (bytesOperand rest).map (bs ++ ·)
  | [.word n, .star, .bytes bs] => (numeral 10 decDigit n).map fun k => (List.replicate k bs).flatten
  | .word n :: .star :: .bytes bs :: .plus :: rest => do
    let k ← numeral 10 decDigit n
    pure ((List.replicate k bs).flatten ++ (← bytesOperand rest))
  | _ => none

/-- `<alg>` (R81). -/
def algOperand (cs : List Char) : Option Alg :=
  if cs = ['M', 'D', '5'] then some .md5
  else if cs = ['S', 'H', 'A', '1'] then some .sha1
  else if cs = ['S', 'H', 'A', '2', '5', '6'] then some .sha256
  else if cs = ['S', 'H', 'A', '5', '1', '2'] then some .sha512
  else none

/-- `<hex32>` (R81): `0x` and hexadecimal digits of a value below `2^32`. -/
def hex32Operand : List Char → Option Word32
  | '0' :: 'x' :: digits => do
    let v ← numeral 16 hexDigit digits
    if v < 2 ^ 32 then some (BitVec.ofNat 32 v) else none
  | _ => none

/-- The token list before and after the first comma. -/
def atComma : List Token → Option (List Token × List Token)
  | [] => none
  | .comma :: rest => some ([], rest)
  | t :: rest => (atComma rest).map fun p => (t :: p.1, p.2)

/-- The upper-case form of an ASCII letter; mnemonics are case-insensitive (R81). -/
def upper (c : Char) : Char := if 97 ≤ c.toNat ∧ c.toNat ≤ 122 then Char.ofNat (c.toNat - 32) else c

/-- A line from its tokens (R81, R82, R83), or none where it is no line of the language. -/
def lineOf : List Token → Option AsmLine
  | .word m :: rest =>
    let m := m.map upper
    if m = ['I', 'N', 'I', 'T'] then
      match rest with
      | [.word a] => (algOperand a).map .init
      | _ => none
    else if m = ['R', 'E', 'S', 'E', 'T'] then (if rest = [] then some .reset else none)
    else if m = ['U', 'P', 'D', 'A', 'T', 'E'] then (bytesOperand rest).map .update
    else if m = ['R', 'E', 'S', 'U', 'L', 'T'] then (if rest = [] then some .result else none)
    else if m = ['D', 'I', 'G', 'E', 'S', 'T'] then
      match rest with
      | .word a :: .comma :: bs => do pure (.digest (← algOperand a) (← bytesOperand bs))
      | _ => none
    else if m = ['H', 'K', 'E', 'Y'] then
      match rest with
      | .word a :: .comma :: bs => do pure (.hkey (← algOperand a) (← bytesOperand bs))
      | _ => none
    else if m = ['H', 'S', 'I', 'G', 'N'] then (bytesOperand rest).map .hsign
    else if m = ['C', 'L', 'R', 'E', 'R', 'R'] then (if rest = [] then some .clrerr else none)
    else if m = ['.', 'W', 'O', 'R', 'D'] then
      match rest with
      | [.word x] => (hex32Operand x).map fun w => .word w []
      | .word x :: .comma :: bs => do pure (.word (← hex32Operand x) (← bytesOperand bs))
      | _ => none
    else if m = ['H', 'M', 'A', 'C'] then
      match rest with
      | .word a :: .comma :: more => do
        let (secret, message) ← atComma more
        pure (.hmac (← algOperand a) (← bytesOperand secret) (← bytesOperand message))
      | _ => none
    else if m = ['H', 'A', 'S', 'H'] then
      match rest with
      | .word a :: .comma :: bs => do pure (.hash (← algOperand a) (← bytesOperand bs))
      | _ => none
    else none
  | _ => none

/-- The transactions of a line of text; an empty line has none. -/
def assembleText (line : List Char) : Option (List Transaction) := do
  let ts ← tokens (.plain []) line
  if ts = [] then pure [] else assemble (← lineOf ts)

end Sys2Proof.Machine
end

