-- ==== Sys2Proof/Safety.lean ====
section
/-! DEFINITION. The terms in which statements about the machine are written: its invariant, what a command leaves
unchanged, and the independent forms of the hash functions. -/

namespace Sys2Proof.Machine

/-! ## The invariant -/

/-- A digest instance has its form: a buffer of 128 bytes and an occupancy below the block size (R23, R26). -/
abbrev Instance.Wf (x : Instance) : Prop := x.BUF.wf ∧ x.OCC < x.ALG.B

/-- The key register has its form (R30, R31): 128 bytes, zero above the block size of the key's algorithm, and at its
reset value while no key is stored. -/
def State.KeyWf (s : State) : Prop :=
  s.K.wf ∧ (∀ a, s.KALG.B ≤ a → byteAt s.K a = 0x00#8) ∧
    (s.KVALID = false → s.K = zeros spaceSize ∧ s.KALG = .md5)

/-- The error record has its form (R32, R227): a code is shown exactly while `ERR` is 1. -/
def State.ErrorWf (s : State) : Prop := s.ERR = true ↔ s.ERRCODE ≠ 0b00#2

/-- The command in progress has its form (R33, R255, R256): output is pending exactly while a command is draining; a
waiting command has an encoding and a payload, and if it is HSIGN a key is stored. -/
def State.ActivityWf (s : State) : Prop :=
  match s.activity with
  | .idle => s.dout = []
  | .running i => s.dout = [] ∧ i.wf = true ∧ 0 < i.count ∧ (i.op = .hsign → s.KVALID = true)
  | .discarding _ count => s.dout = [] ∧ countFits count = true ∧ 0 < count
  | .draining => s.dout ≠ []

/-- While the reset input is asserted the block holds its reset state, but for bytes offered meanwhile (R250; log entry 8,
and log entry 2 for `D.BUF`, `I` and `O`). -/
def State.HeldInReset (s : State) : Prop := s.rst = true → { s with din := [] } = s.resetBlock

/-- The invariant of the machine: what holds at reset and is kept by every step. -/
structure State.Inv (s : State) : Prop where
  D : s.D.Wf
  I : s.I.Wf
  O : s.O.Wf
  key : s.KeyWf
  error : s.ErrorWf
  activity : s.ActivityWf
  held : s.HeldInReset

/-! ## What a command leaves unchanged -/

/-- The key register and its tags are unchanged. -/
def sameKey (s t : State) : Prop := t.K = s.K ∧ t.KALG = s.KALG ∧ t.KVALID = s.KVALID

/-- The error record is unchanged. -/
def sameError (s t : State) : Prop := t.ERR = s.ERR ∧ t.ERRCODE = s.ERRCODE

/-- The internal instances are unchanged. -/
def sameScratch (s t : State) : Prop := t.I = s.I ∧ t.O = s.O

/-- The output side of the interface is unchanged. -/
def sameOutput (s t : State) : Prop := t.dout = s.dout ∧ t.taken = s.taken ∧ t.credit = s.credit

/-- What is the host's own, its acceptance of output apart, is unchanged: the words it offers, the reset input, what it
has read of `STATUS`, its coming moves. -/
def sameHost (s t : State) : Prop := t.cmds = s.cmds ∧ t.rst = s.rst ∧ t.sampled = s.sampled ∧ t.script = s.script

/-- All bytes written to the data-out stream so far, accepted or not, oldest first. -/
def State.output (s : State) : List Byte := s.taken ++ s.dout

/-- From `s` to `t` exactly the bytes `out` were written to the data-out stream, after every earlier byte; the host has
accepted as many as it stood ready for; the command is complete exactly if it has accepted them all (R33, R52, R256). -/
def wroteOutput (out : List Byte) (s t : State) : Prop :=
  t.output = s.output ++ out ∧ t.dout = (s.dout ++ out).drop s.credit ∧
    t.credit = s.credit - (s.dout ++ out).length ∧
    t.activity = (if (s.dout ++ out).length ≤ s.credit then .idle else .draining)

/-- Two instances agree on everything a rule defines: all but the stale bytes of the buffer (R25, R153). -/
def sameMessage (x y : Instance) : Prop :=
  x.H = y.H ∧ x.OCC = y.OCC ∧ x.LEN = y.LEN ∧ x.PHASE = y.PHASE ∧ x.BUF.take x.OCC = y.BUF.take y.OCC

/-- Only the key register may differ. -/
def sameButKey (s t : State) : Prop := t = { s with K := t.K }

/-- The outcomes are next states that differ in the key register at most. -/
def nextSameButKey (r r' : Result) : Prop := ∃ t t', r = .next t ∧ r' = .next t' ∧ sameButKey t t'

/-- The machine after `n` steps, or the first stop. -/
def runSteps : Nat → State → Result
  | 0, s => .next s
  | n + 1, s =>
    match step s with
    | .next t => runSteps n t
    | r => r

/-! ## The encoding rules written out -/

/-- The illegal operation values (`60_exceptions.md` R222). -/
def illegalOps : List (BitVec 4) := [0x0#4, 0x8#4, 0x9#4, 0xA#4, 0xB#4, 0xC#4, 0xD#4, 0xE#4]

/-- Each legal operation value with the mask and the match of its words (`30_encoding.md` R76). -/
def legalForms : List (BitVec 4 × Word32 × Word32) :=
  [(0x1#4, 0xFFFFFFCF#32, 0x00000001#32), (0x2#4, 0xFFFFFFFF#32, 0x00000002#32),
   (0x3#4, 0x000000FF#32, 0x00000003#32), (0x4#4, 0xFFFFFFFF#32, 0x00000004#32),
   (0x5#4, 0x000000CF#32, 0x00000005#32), (0x6#4, 0x000000CF#32, 0x00000006#32),
   (0x7#4, 0x000000FF#32, 0x00000007#32), (0xF#4, 0xFFFFFFFF#32, 0x0000000F#32)]

/-- The operation is legal and the word breaks a constraint of R76 (R223). -/
def breaksForm (w : Word32) : Prop := ∃ f ∈ legalForms, w.extractLsb' 0 4 = f.1 ∧ w &&& f.2.1 ≠ f.2.2

/-! ## The assembly language written out -/

/-- The line assembles to the words of the given commands, each with the given payload behind it (R81). -/
def assemblesTo (l : AsmLine) (is : List (Instr × List Byte)) : Prop :=
  ∃ ts, assemble l = some ts ∧
    ts.map (fun p => (decode p.1, p.2)) = is.map fun q => (.ok q.1, q.2)

/-- Consecutive pieces of `bs` of at most 16 777 215 bytes, each but the last of that size; one piece, empty where `bs` is,
where they fit one command (R83). R83 says only "at most": that every piece but the last is full, and that there is one
piece where they fit, is the model's choice, log entry 16. -/
def isSplit (bs : List Byte) (ps : List (List Byte)) : Prop :=
  ps.flatten = bs ∧ (∀ p ∈ ps, p.length ≤ 16777215) ∧ (∀ p ∈ ps.dropLast, p.length = 16777215) ∧
    (bs.length ≤ 16777215 → ps = [bs])

/-! ## Tables of MD5 written out -/

/-- The word that each step adds, as the list of `40_compression.md` R107 gives it. -/
def md5WordOrder : List Nat :=
  [0, 1, 2, 3, 4, 5, 6, 7, 8, 9, 10, 11, 12, 13, 14, 15] ++ [1, 6, 11, 0, 5, 10, 15, 4, 9, 14, 3, 8, 13, 2, 7, 12] ++
    [5, 8, 11, 14, 1, 4, 7, 10, 13, 0, 3, 6, 9, 12, 15, 2] ++ [0, 7, 14, 5, 12, 3, 10, 1, 8, 15, 6, 13, 4, 11, 2, 9]

/-- The rotate amounts of each round (R106). -/
def md5Rotations : List (List Nat) := [[7, 12, 17, 22], [5, 9, 14, 20], [4, 11, 16, 23], [6, 10, 15, 21]]

/-! ## Independent forms of the hash functions -/

/-- The first `k` blocks of `P`, each of `B` bytes. -/
def blocksOf (B k : Nat) (P : List Byte) : List (List Byte) := (List.range k).map fun j => (P.drop (j * B)).take B

/-- The chaining value after the first `k` blocks of `P`, from `H` (`10_state.md` R24). -/
def chainAfter (B k : Nat) (H : Chain) (P : List Byte) : Chain := (blocksOf B k P).foldl compress H

/-- The padded message of `41_streaming.md` R163 with `k` zero bytes. -/
def paddedMessage (alg : Alg) (s : List Byte) (k : Nat) : List Byte :=
  s ++ [0x80#8] ++ zeros k ++ lenField alg (BitVec.ofNat 64 s.length)

/-- HMAC of a message under a derived key (`42_commands.md` R188). -/
def hmacOf (alg : Alg) (key msg : List Byte) : List Byte :=
  digest alg (xorBytes key outerPad ++ digest alg (xorBytes key innerPad ++ msg))

end Sys2Proof.Machine
end

