-- ==== Sys2Proof/Certificates/Slice0/Obligations.lean ====
section
/-! DEFINITION. The statements about the machine, for the provers. A statement about the outcome of a command is read with
`output`, `wroteOutput`, `sameKey` and the other terms of `Sys2Proof/Safety.lean`. -/

open Sys2Proof Sys2Proof.Machine

/-! ## Encoding -/

/-- The command words of `30_encoding.md` section 5 (R84) decode to the commands beside them, and its two malformed words
to their errors. -/
def Obligations.ExampleWordsDecode : Prop :=
  decode 0x00000001#32 = .ok (.init .md5) ∧ decode 0x00000021#32 = .ok (.init .sha256) ∧
  decode 0x00000002#32 = .ok .reset ∧ decode 0x00000303#32 = .ok (.update 3) ∧
  decode 0x00000003#32 = .ok (.update 0) ∧ decode 0x00000004#32 = .ok .result ∧
  decode 0x00000335#32 = .ok (.digest .sha512 3) ∧ decode 0x00005016#32 = .ok (.hkey .sha1 80) ∧
  decode 0x00003607#32 = .ok (.hsign 54) ∧ decode 0x0000000F#32 = .ok .clrerr ∧
  decode 0x00000200#32 = .error .illop ∧ decode 0x00000131#32 = .error .field

/-- Every command with an encoding is what its own word decodes to: no bit of an encoding is dropped. -/
def Obligations.DecodeOfEncode : Prop :=
  ∀ i : Instr, i.wf = true → decode (encode i) = .ok i

/-- Every word has at most one meaning: a word that decodes to a command is that command's word, and the command has an
encoding. -/
def Obligations.EncodeOfDecode : Prop :=
  ∀ (w : Word32) (i : Instr), decode w = .ok i → i.wf = true ∧ encode i = w

/-- R222: `E_ILLOP` is raised exactly for the illegal operation values, whatever the other fields hold, and the command is
then refused with it. -/
def Obligations.IllegalOperationRaisedExactly : Prop :=
  ∀ (w : Word32) (s : State),
    (checkCommand w s = some .illop ↔ w.extractLsb' 0 4 ∈ illegalOps) ∧
    (w.extractLsb' 0 4 ∈ illegalOps → executeCommand w s = refuseCommand .illop (w.extractLsb' 8 24).toNat s)

/-- R223: `E_FIELD` is raised exactly when the operation is legal and the word breaks its mask and match, and the command is
then refused with it. -/
def Obligations.FieldErrorRaisedExactly : Prop :=
  ∀ (w : Word32) (s : State),
    (checkCommand w s = some .field ↔ breaksForm w) ∧
    (breaksForm w → executeCommand w s = refuseCommand .field (w.extractLsb' 8 24).toNat s)

/-- R224: `E_NOKEY` is raised exactly for a well-formed HSIGN while `KVALID` is 0; `KVALID` is 0 at reset and no command
but HKEY, and no refused command, changes it. -/
def Obligations.NoKeyRaisedExactly : Prop :=
  (∀ (w : Word32) (s : State),
    checkCommand w s = some .nokey ↔ w &&& 0x000000FF#32 = 0x00000007#32 ∧ s.KVALID = false) ∧
  (∀ (count : Nat) (s : State), s.KVALID = false → exec (.hsign count) s = refuseCommand .nokey count s) ∧
  State.reset.KVALID = false ∧
  (∀ (i : Instr) (s t : State), exec i s = .next t → i.op ≠ .hkey → t.KVALID = s.KVALID) ∧
  (∀ (e : CmdError) (count : Nat) (s t : State), refuseCommand e count s = .next t → t.KVALID = s.KVALID)

/-- R225: the first that applies of `E_ILLOP`, `E_FIELD`, `E_NOKEY`, none; the check reads the word and `KVALID` alone; the
command is refused with the error found, and is run where there is none. -/
def Obligations.ErrorPriority : Prop :=
  (∀ (w : Word32) (s : State), w.extractLsb' 0 4 ∈ illegalOps → checkCommand w s = some .illop) ∧
  (∀ (w : Word32) (s : State), w.extractLsb' 0 4 ∉ illegalOps → breaksForm w → checkCommand w s = some .field) ∧
  (∀ (w : Word32) (s : State), w.extractLsb' 0 4 ∉ illegalOps → ¬ breaksForm w → w.extractLsb' 0 4 = 0x7#4 →
    s.KVALID = false → checkCommand w s = some .nokey) ∧
  (∀ (w : Word32) (s : State), w.extractLsb' 0 4 ∉ illegalOps → ¬ breaksForm w →
    (w.extractLsb' 0 4 = 0x7#4 → s.KVALID = true) → checkCommand w s = none) ∧
  (∀ (w : Word32) (s t : State), s.KVALID = t.KVALID → checkCommand w s = checkCommand w t) ∧
  (∀ (w : Word32) (s : State) (e : CmdError), checkCommand w s = some e →
    executeCommand w s = refuseCommand e (w.extractLsb' 8 24).toNat s) ∧
  (∀ (w : Word32) (s : State), checkCommand w s = none →
    ∃ i, decode w = .ok i ∧ i.count = (w.extractLsb' 8 24).toNat ∧ executeCommand w s = exec i s)

/-! ## Refused commands -/

/-- R226: a refused command takes and discards its payload, outputs nothing, changes no instance, no key and no status but
the error record, and completes; the next command word is then accepted as usual. -/
def Obligations.RefusedCommandEffect : Prop :=
  ∀ (e : CmdError) (count : Nat) (s : State), count ≤ s.din.length →
    ∃ t, refuseCommand e count s = .next t ∧ t.din = s.din.drop count ∧ sameOutput s t ∧ t.D = s.D ∧ sameScratch s t ∧
      sameKey s t ∧ sameHost s t ∧ t.ERR = true ∧ (s.ERR = true → t.ERRCODE = s.ERRCODE) ∧
      (s.ERR = false → t.ERRCODE = CmdError.code e) ∧ t.busy = false ∧
      (∀ w rest, t.rst = false → t.cmds = w :: rest → coreStep t = executeCommand w { t with cmds := rest })

/-- R227: the first error since the last clear is recorded, with its code, and kept; only CLRERR and reset clear it. -/
def Obligations.ErrorRecordKeepsFirst : Prop :=
  (∀ s : State, s.ERR = false →
    recordError .illop s = { s with ERR := true, ERRCODE := 0b01#2 } ∧
    recordError .field s = { s with ERR := true, ERRCODE := 0b10#2 } ∧
    recordError .nokey s = { s with ERR := true, ERRCODE := 0b11#2 }) ∧
  (∀ (e : CmdError) (s : State), s.ERR = true → recordError e s = s) ∧
  (∀ (i : Instr) (s t : State), exec i s = .next t → i ≠ .clrerr → s.ERR = true → sameError s t) ∧
  (∀ s t : State, step s = .next t → s.ERR = true → sameError s t ∨ s.rst = true ∨
    s.script.head? = some (.setReset true) ∨ s.activity = .running .clrerr ∨
    (s.activity = .idle ∧ s.cmds.head? = some 0x0000000F#32))

/-! ## The step -/

/-- A step of an idle machine whose next command word decodes to a command runs that command, on the state from which the
word is taken; a word that decodes to an error is refused with it (`42_commands.md` R180). -/
def Obligations.StepRunsDecodedCommand : Prop :=
  ∀ (s : State) (w : Word32) (rest : List Word32),
    s.script = [] → s.rst = false → s.activity = .idle → s.cmds = w :: rest →
    (∀ i, decode w = .ok i → step s = exec i { s with cmds := rest }) ∧
    (∀ e, decode w = .error e → step s = refuseCommand e (countField w) { s with cmds := rest })

/-- A command word is accepted only while `BUSY` is 0; words offered meanwhile wait in order; the next command runs on
exactly the state the one before it left (`70_reset_and_hazards.md` section 3, R257). That waiting words stay offered
also across a block reset is the model's choice, log entry 8. -/
def Obligations.CommandsWaitWhileBusy : Prop :=
  (∀ s t : State, step s = .next t → s.busy = true → ∃ offered, t.cmds = s.cmds ++ offered) ∧
  (∀ (s t : State) (w : Word32) (rest : List Word32), s.busy = false → s.rst = false → s.cmds = w :: rest →
    coreStep s = executeCommand w { s with cmds := rest } ∧ (coreStep s = .next t → t.cmds = rest))

/-- No step of the machine stops: the block has no fault state (`93_implementation_defined.md` section 1: "`fault`: not
used"), and no command is without a meaning. -/
def Obligations.StepAlwaysAnswersNext : Prop :=
  ∀ s : State, ∃ t, step s = .next t

/-- R238: an idle block with no command word pending holds all its state: its own moves change nothing, and no move of the
host but a reset changes anything of the block but the bytes on the data-in stream. -/
def Obligations.IdleBlockHoldsState : Prop :=
  ∀ s : State, s.activity = .idle → s.cmds = [] → s.rst = false →
    coreStep s = .next s ∧ (s.script = [] → step s = .next s) ∧
    ∀ m : HostMove, (∀ b, m ≠ .setReset b) →
      (hostMove m s).D = s.D ∧ sameScratch s (hostMove m s) ∧ sameKey s (hostMove m s) ∧ sameError s (hostMove m s) ∧
      (hostMove m s).activity = .idle ∧ (hostMove m s).dout = s.dout ∧ ∃ bs, (hostMove m s).din = s.din ++ bs

/-- The machine after reset meets the invariant (whose `State.HeldInReset` rests on log entries 2 and 8). -/
def Obligations.ResetMeetsInvariant : Prop := State.reset.Inv

/-- Every step keeps the invariant: buffers of 128 bytes, occupancies below the block size (R26), the key register zero
above its block and at its reset value while no key is stored (R30, R31), an error code exactly while `ERR` is 1, pending
output exactly while a command is draining, and the reset state while reset is asserted. The last, `State.HeldInReset`,
is the model's choice: that the level of the reset input resets the block is log entry 8 (R250 gives the values when
reset is released), and the values of `D.BUF`, `I` and `O` in that state are log entry 2's. -/
def Obligations.StepKeepsInvariant : Prop :=
  ∀ s t : State, s.Inv → step s = .next t → t.Inv

/-- A command whose payload has all arrived and whose output the host stands ready to accept completes, here in one step
(`70_reset_and_hazards.md` R261, with the model's choice of step, log entry 4). -/
def Obligations.CommandCompletesOnceFed : Prop :=
  ∀ (s : State) (w : Word32) (rest : List Word32),
    s.script = [] → s.rst = false → s.activity = .idle → s.dout = [] → s.cmds = w :: rest →
    (w.extractLsb' 8 24).toNat ≤ s.din.length → 64 ≤ s.credit →
    ∃ t, step s = .next t ∧ t.activity = .idle ∧ t.dout = [] ∧ t.cmds = rest ∧
      t.din = s.din.drop (w.extractLsb' 8 24).toNat

/-- A command, refused or not, whose payload has not all arrived is stuck with `BUSY = 1`: the core's next move leaves the
same state, with nothing taken. Once the missing bytes are there it goes on as if they had been there at once, and
further bytes stay for the next command (`70_reset_and_hazards.md` section 3, R255; that the waiting command has taken
nothing is the model's choice, log entry 5). -/
def Obligations.ShortPayloadIsStuck : Prop :=
  ∀ (s : State) (w : Word32), s.rst = false → s.din.length < (w.extractLsb' 8 24).toNat →
    ∃ t, executeCommand w s = .next t ∧ t.busy = true ∧ t = { s with activity := t.activity } ∧ coreStep t = .next t ∧
      (∀ d : List Byte, (w.extractLsb' 8 24).toNat ≤ d.length →
        coreStep { t with din := d } = executeCommand w { s with din := d } ∧
        ∃ u, coreStep { t with din := d } = .next u ∧ u.din = d.drop (w.extractLsb' 8 24).toNat)

/-- R256: until the host accepts all output bytes of a command, the command does not complete and no further command word
is accepted; once it stands ready for all of them, they are accepted in order and the command completes. -/
def Obligations.UndrainedOutputIsStuck : Prop :=
  (∀ s : State, s.rst = false → s.activity = .draining → s.credit < s.dout.length →
    ∃ t, coreStep s = .next t ∧ t.busy = true ∧ t.dout = s.dout.drop s.credit ∧
      t.taken = s.taken ++ s.dout.take s.credit ∧ t.cmds = s.cmds ∧ (s.credit = 0 → t = s)) ∧
  (∀ s : State, s.rst = false → s.activity = .draining → s.dout.length ≤ s.credit →
    ∃ t, coreStep s = .next t ∧ t.busy = false ∧ t.dout = [] ∧ t.taken = s.taken ++ s.dout ∧ t.cmds = s.cmds) ∧
  (∀ (i : Instr) (s t : State), i.op = .result ∨ i.op = .digest ∨ i.op = .hsign ∧ s.KVALID = true →
    i.count ≤ s.din.length → s.dout = [] → exec i s = .next t →
    ∃ n : Nat, (n = 16 ∨ n = 20 ∨ n = 32 ∨ n = 64) ∧ t.output.length = s.output.length + n ∧
      (t.busy = false ↔ n ≤ s.credit))

/-! ## Reset and status -/

/-- R39: the value of every piece of state after reset that the rule gives one. -/
def Obligations.ResetValues : Prop :=
  State.reset.D.ALG = .md5 ∧
  State.reset.D.H = .md5 ⟨0x67452301#32, 0xEFCDAB89#32, 0x98BADCFE#32, 0x10325476#32⟩ ∧
  State.reset.D.OCC = 0 ∧ State.reset.D.LEN = 0#64 ∧ State.reset.D.PHASE = .absorb ∧
  State.reset.K = List.replicate 128 0x00#8 ∧ State.reset.KALG = .md5 ∧ State.reset.KVALID = false ∧
  State.reset.busy = false ∧ State.reset.ERR = false ∧ State.reset.ERRCODE = 0b00#2 ∧ State.reset.status = 0#32 ∧
  State.reset.din = [] ∧ State.reset.dout = [] ∧
  ∃ t, exec (.init .md5) State.reset = .next t ∧ sameMessage t.D State.reset.D

/-- R250, R251: while reset is asserted, and when it is asserted in the middle of a command or released, all state of the
block takes its reset value: the command is abandoned, its payload is not taken, its output that the host has not yet
accepted is lost; no command word is accepted (R252: the streams are emptied). `I`, `O` and `D.BUF`, unspecified at
reset, are left out. The model's choice, log entry 8: the reset values hold already while reset is asserted, the command
words offered stay offered, and bytes offered while reset is asserted are lost. -/
def Obligations.BlockResetAbandonsCommand : Prop :=
  ∀ s : State,
    (∀ rest b, s.script = .setReset b :: rest → (b = true ∨ s.rst = true) →
      ∃ t, step s = .next t ∧ t.rst = b ∧ t.D.H = iv .md5 ∧ t.D.OCC = 0 ∧ t.D.LEN = 0#64 ∧ t.D.PHASE = .absorb ∧
        t.K = zeros 128 ∧ t.KALG = .md5 ∧ t.KVALID = false ∧ t.status = 0#32 ∧ t.din = [] ∧ t.dout = [] ∧
        t.taken = s.taken ∧ t.cmds = s.cmds) ∧
    (s.script = [] ∨ s.script.head? = some .letCore → s.rst = true →
      ∃ t, step s = .next t ∧ t.rst = true ∧ t.D.H = iv .md5 ∧ t.D.OCC = 0 ∧ t.D.LEN = 0#64 ∧ t.D.PHASE = .absorb ∧
        t.K = zeros 128 ∧ t.KALG = .md5 ∧ t.KVALID = false ∧ t.status = 0#32 ∧ t.din = [] ∧ t.dout = [] ∧
        t.taken = s.taken ∧ t.cmds = s.cmds)

/-- The `STATUS` word shows each field at its place and reads 0 in its reserved bits; no move of the host but a reset
changes it, and an idle core with no command word to accept does not (`10_state.md` section 5, R32). -/
def Obligations.StatusWordFields : Prop :=
  (∀ s : State,
    s.status.extractLsb' 0 1 = (if s.activity = .idle then 0#1 else 1#1) ∧
    s.status.extractLsb' 1 1 = BitVec.ofBool s.ERR ∧ s.status.extractLsb' 2 2 = s.ERRCODE ∧
    s.status.extractLsb' 4 1 = BitVec.ofBool s.KVALID ∧ s.status.extractLsb' 5 2 = s.KALG.code ∧
    s.status.extractLsb' 7 2 = s.D.ALG.code ∧
    s.status.extractLsb' 9 1 = (if s.D.PHASE = .final then 1#1 else 0#1) ∧ s.status.extractLsb' 10 22 = 0#22) ∧
  (∀ (m : HostMove) (s : State), (∀ b, m ≠ .setReset b) → (hostMove m s).status = s.status) ∧
  (∀ s t : State, s.busy = false → s.rst = false → s.cmds = [] → coreStep s = .next t → t.status = s.status)

/-- Reading `STATUS` has no side effect on the block (`20_memory.md` R59); while `BUSY` is 0 the host reads the driven
word; while it is 1 the host still reads `BUSY` and the reserved bits as they are, which is log entry 9's reading of
`70_reset_and_hazards.md` R258. -/
def Obligations.StatusReadHasNoSideEffect : Prop :=
  ∀ (s : State) (rest : List HostMove), s.script = .readStatus :: rest →
    ∃ t, step s = .next t ∧ t = { s with script := rest, sampled := t.sampled, draws := t.draws } ∧
      (s.busy = false → t.sampled = s.status) ∧ t.sampled.extractLsb' 0 1 = s.status.extractLsb' 0 1 ∧
      t.sampled.extractLsb' 10 22 = 0#22

/-! ## Byte spaces and serialization -/

/-- `MemWrite` followed by `MemRead` gives the bytes written; a write keeps the space's size and every byte outside it
(`00_scope.md` R10). -/
def Obligations.ByteSpaceReadAfterWrite : Prop :=
  ∀ (m : Memory) (addr : Nat) (v : List Byte), addr + v.length ≤ m.length →
    memRead (memWrite m addr v) addr v.length = v ∧ (memWrite m addr v).length = m.length ∧
    ∀ a, a < addr ∨ addr + v.length ≤ a → byteAt (memWrite m addr v) a = byteAt m a

/-- R157: the length field is the bit length in the algorithm's width and byte order, byte by byte. -/
def Obligations.LengthFieldBytes : Prop :=
  ∀ len : Word64,
    (lenField .md5 len).length = 8 ∧
    (∀ k < 8, (byteAt (lenField .md5 len) k).toNat = len.toNat * 8 % 2 ^ 64 / 256 ^ k % 256) ∧
    (∀ alg, alg = .sha1 ∨ alg = .sha256 → (lenField alg len).length = 8 ∧
      ∀ k < 8, (byteAt (lenField alg len) k).toNat = len.toNat * 8 % 2 ^ 64 / 256 ^ (7 - k) % 256) ∧
    (lenField .sha512 len).length = 16 ∧
    (∀ k < 16, (byteAt (lenField .sha512 len) k).toNat = len.toNat * 8 / 256 ^ (15 - k) % 256) ∧
    lenField .sha512 len = toBE ((len.extractLsb' 61 3).setWidth 64) 8 ++ toBE (len * 8#64) 8

/-- R158: the serialized words, little-endian for MD5 and big-endian for the others, `N` bytes, byte by byte. -/
def Obligations.SerializedBytes : Prop :=
  (∀ h : Words4 32, (serialize (.md5 h)).length = 16 ∧ ∀ j < 4, ∀ k < 4,
    (byteAt (serialize (.md5 h)) (4 * j + k)).toNat = ([h.a, h.b, h.c, h.d].getD j 0#32).toNat / 256 ^ k % 256) ∧
  (∀ h : Words5 32, (serialize (.sha1 h)).length = 20 ∧ ∀ j < 5, ∀ k < 4,
    (byteAt (serialize (.sha1 h)) (4 * j + k)).toNat =
      ([h.a, h.b, h.c, h.d, h.e].getD j 0#32).toNat / 256 ^ (3 - k) % 256) ∧
  (∀ h : Words8 32, (serialize (.sha256 h)).length = 32 ∧ ∀ j < 8, ∀ k < 4,
    (byteAt (serialize (.sha256 h)) (4 * j + k)).toNat =
      ([h.a, h.b, h.c, h.d, h.e, h.f, h.g, h.h].getD j 0#32).toNat / 256 ^ (3 - k) % 256) ∧
  (∀ h : Words8 64, (serialize (.sha512 h)).length = 64 ∧ ∀ j < 8, ∀ k < 8,
    (byteAt (serialize (.sha512 h)) (8 * j + k)).toNat =
      ([h.a, h.b, h.c, h.d, h.e, h.f, h.g, h.h].getD j 0#64).toNat / 256 ^ (7 - k) % 256)

/-! ## Compression cores -/

/-- The MD5 message words are the sixteen little-endian words of the block; each of the 64 steps adds the word that the list
of R107 names for it, with its constant and its rotation, and turns the registers; a compression is the 64 steps and the
additive feedback (`40_compression.md` section 2, R103 to R108). -/
def Obligations.Md5MessageWords : Prop :=
  ∀ blk : List Byte, (wordsLE32 blk).length = 16 ∧
    (∀ j < 16, ((wordsLE32 blk).getD j 0#32).toNat = (byteAt blk (4 * j)).toNat + 256 * (byteAt blk (4 * j + 1)).toNat +
      256 ^ 2 * (byteAt blk (4 * j + 2)).toNat + 256 ^ 3 * (byteAt blk (4 * j + 3)).toNat) ∧
    (∀ (r : Words4 32) (i : Nat), i < 64 → md5Step (wordsLE32 blk) r i =
      ⟨r.d, r.b + rotl (r.a +
        (if i < 16 then (r.b &&& r.c) ||| (~~~r.b &&& r.d) else if i < 32 then (r.b &&& r.d) ||| (r.c &&& ~~~r.d)
          else if i < 48 then r.b ^^^ r.c ^^^ r.d else r.c ^^^ (r.b ||| ~~~r.d)) +
        md5T.getD i 0#32 + (wordsLE32 blk).getD (md5WordOrder.getD i 0) 0#32)
        ((md5Rotations.getD (i / 16) []).getD (i % 4) 0), r.b, r.c⟩) ∧
    (∀ h : Words4 32, let r := (List.range 64).foldl (md5Step (wordsLE32 blk)) h
      compress (.md5 h) blk = .md5 ⟨h.a + r.a, h.b + r.b, h.c + r.c, h.d + r.d⟩)

/-- R110, R111: the SHA-1 schedule is the sixteen big-endian words of the block, then sixty-four words by the
recurrence. -/
def Obligations.Sha1ScheduleRecurrence : Prop :=
  ∀ blk : List Byte, (sha1Schedule blk).length = 80 ∧
    (∀ t < 16, (sha1Schedule blk).getD t 0#32 = be32 blk (4 * t)) ∧
    (∀ t, 16 ≤ t → t < 80 → (sha1Schedule blk).getD t 0#32 =
      rotl ((sha1Schedule blk).getD (t - 3) 0#32 ^^^ (sha1Schedule blk).getD (t - 8) 0#32 ^^^
        (sha1Schedule blk).getD (t - 14) 0#32 ^^^ (sha1Schedule blk).getD (t - 16) 0#32) 1)

/-- R116, R120: the SHA-256 schedule. -/
def Obligations.Sha256ScheduleRecurrence : Prop :=
  ∀ blk : List Byte, (sha256Schedule blk).length = 64 ∧
    (∀ t < 16, (sha256Schedule blk).getD t 0#32 = be32 blk (4 * t)) ∧
    (∀ t, 16 ≤ t → t < 64 → (sha256Schedule blk).getD t 0#32 =
      sha256Sigma1 ((sha256Schedule blk).getD (t - 2) 0#32) + (sha256Schedule blk).getD (t - 7) 0#32 +
        sha256Sigma0 ((sha256Schedule blk).getD (t - 15) 0#32) + (sha256Schedule blk).getD (t - 16) 0#32)

/-- R124, R128: the SHA-512 schedule. -/
def Obligations.Sha512ScheduleRecurrence : Prop :=
  ∀ blk : List Byte, (sha512Schedule blk).length = 80 ∧
    (∀ t < 16, (sha512Schedule blk).getD t 0#64 = be64 blk (8 * t)) ∧
    (∀ t, 16 ≤ t → t < 80 → (sha512Schedule blk).getD t 0#64 =
      sha512Sigma1 ((sha512Schedule blk).getD (t - 2) 0#64) + (sha512Schedule blk).getD (t - 7) 0#64 +
        sha512Sigma0 ((sha512Schedule blk).getD (t - 15) 0#64) + (sha512Schedule blk).getD (t - 16) 0#64)

/-! ## Streaming, padding and finalization -/

/-- R152: one `Absorb` adds the length of its input to `LEN`, modulo `2^64`, once, on every path. -/
def Obligations.LengthCountedOnce : Prop :=
  ∀ (x : Instance) (s : List Byte), (absorb x s).LEN.toNat = (x.LEN.toNat + s.length) % 2 ^ 64

/-- `Absorb` leaves an instance as the byte-by-byte procedure with the block-boundary detector does
(`41_streaming.md` section 2, R153). -/
def Obligations.AbsorbIsBytewise : Prop :=
  ∀ (x : Instance) (s : List Byte), x.Wf →
    sameMessage (absorb x s) (absorbBytewise x s) ∧ (absorb x s).OCC < (absorb x s).ALG.B

/-- After any number of `Absorb`s from a fresh instance, the chaining value is that of the whole blocks delivered, the
buffer holds the bytes after them, and `LEN` counts all bytes (`10_state.md` R24 to R27: "after N full blocks have been
absorbed, State equals the algorithm's defined chaining value"). -/
def Obligations.ChainingValueOfDeliveredBytes : Prop :=
  ∀ (x : Instance) (alg : Alg) (pieces : List (List Byte)),
    let y := pieces.foldl absorb (initInstance x alg)
    let s := pieces.flatten
    y.ALG = alg ∧ y.H = chainAfter alg.B (s.length / alg.B) (iv alg) s ∧ y.OCC = s.length % alg.B ∧
      y.BUF.take y.OCC = s.drop (s.length / alg.B * alg.B) ∧ y.LEN = BitVec.ofNat 64 s.length ∧ y.PHASE = .absorb

/-- One `Absorb` compresses exactly the whole blocks that the partial buffer and the input make up, and keeps the rest as
the new partial buffer (`41_streaming.md` R151; the count is `70_reset_and_hazards.md` R262). -/
def Obligations.AbsorbHashesWholeBlocks : Prop :=
  ∀ (x : Instance) (s : List Byte), x.Wf →
    let P := x.BUF.take x.OCC ++ s
    let m := (x.OCC + s.length) / x.ALG.B
    (absorb x s).H = chainAfter x.ALG.B m x.H P ∧ (absorb x s).OCC = (x.OCC + s.length) % x.ALG.B ∧
      (absorb x s).BUF.take (absorb x s).OCC = P.drop (m * x.ALG.B) ∧ (absorb x s).ALG = x.ALG ∧
      (absorb x s).PHASE = x.PHASE

/-- No stale byte is read: instances that agree on all but the bytes at and after `OCC` stay so under `Absorb` and give the
same result under `Finalize` (`41_streaming.md` section 3, R156). -/
def Obligations.NoStaleByteIsRead : Prop :=
  ∀ x y : Instance, x.Wf → y.Wf → sameMessage x y →
    (∀ s, sameMessage (absorb x s) (absorb y s)) ∧ (finalize x).1 = (finalize y).1 ∧
      sameMessage (finalize x).2 (finalize y).2

/-- `Finalize` compresses one block where the tail, the marker and the length field fit in it, and two where they do not;
the blocks are the tail, the marker, zeros and the length field (`41_streaming.md` section 3, R155, R162). -/
def Obligations.FinalizeOneOrTwoBlocks : Prop :=
  ∀ x : Instance, x.Wf →
    let B := x.ALG.B
    let LF := x.ALG.LF
    let tail := x.BUF.take x.OCC
    (finalize x).2.OCC = 0 ∧ (finalize x).2.LEN = x.LEN ∧ (finalize x).2.PHASE = .final ∧ (finalize x).2.ALG = x.ALG ∧
    (finalize x).1 = serialize (finalize x).2.H ∧
    (x.OCC ≤ B - LF - 1 →
      (finalize x).2.H = compress x.H (tail ++ [0x80#8] ++ zeros (B - LF - 1 - x.OCC) ++ lenField x.ALG x.LEN)) ∧
    (B - LF ≤ x.OCC →
      (finalize x).2.H = compress (compress x.H (tail ++ [0x80#8] ++ zeros (B - 1 - x.OCC)))
        (zeros (B - LF) ++ lenField x.ALG x.LEN))

/-- The digest of a message is the serialized chaining value of the padded message, the padding being the marker, the least
number of zeros that reaches a block boundary, and the length field (`41_streaming.md` section 4, R163); the padded
message has as many blocks as the message, the marker and the length field need (`70_reset_and_hazards.md` R262). -/
def Obligations.DigestClosedForm : Prop :=
  ∀ (alg : Alg) (s : List Byte), ∃ k < alg.B,
    (paddedMessage alg s k).length = alg.B * ((s.length + 1 + alg.LF + (alg.B - 1)) / alg.B) ∧
    digest alg s = serialize
      (chainAfter alg.B ((s.length + 1 + alg.LF + (alg.B - 1)) / alg.B) (iv alg) (paddedMessage alg s k))

/-- However a message is split into pieces, and whatever instance absorbs them, its digest is the same
(`41_streaming.md` section 4, R164; `20_memory.md` R63). -/
def Obligations.ChunkInvariance : Prop :=
  ∀ (x : Instance) (alg : Alg) (pieces : List (List Byte)),
    (finalize (pieces.foldl absorb (initInstance x alg))).1 = digest alg pieces.flatten

/-! ## Commands on the host-visible instance -/

/-- INIT makes `D` a fresh instance of its algorithm, in any state, and changes nothing else; INIT of `D`'s own algorithm is
RESET; its only error is `E_FIELD`, for a count or reserved bits that are not 0 (`42_commands.md` section 2, R181). That
it keeps `I` and `O` is the model's choice, log entry 13. -/
def Obligations.InitStartsMessage : Prop :=
  (∀ (alg : Alg) (s : State), ∃ t, exec (.init alg) s = .next t ∧ t.D.ALG = alg ∧ t.D.H = iv alg ∧ t.D.OCC = 0 ∧
    t.D.LEN = 0#64 ∧ t.D.PHASE = .absorb ∧ t.status.extractLsb' 7 2 = alg.code ∧ t.status.extractLsb' 9 1 = 0#1 ∧
    t.busy = false ∧ sameKey s t ∧ sameError s t ∧ sameScratch s t ∧ sameOutput s t ∧ sameHost s t ∧ t.din = s.din) ∧
  (∀ s : State, exec (.init s.D.ALG) s = exec .reset s) ∧
  (∀ (w : Word32) (s : State), w.extractLsb' 0 4 = 0x1#4 →
    checkCommand w s = if (w.extractLsb' 8 24).toNat ≠ 0 ∨ w.extractLsb' 6 2 ≠ 0#2 then some .field else none)

/-- RESET makes `D` a fresh instance of its own algorithm and changes nothing else; after a block reset that is MD5; its
only error is `E_FIELD`, for any other bit set (`42_commands.md` section 2, R182). That it keeps `I` and `O` is the
model's choice, log entry 13. -/
def Obligations.ResetRestartsMessage : Prop :=
  (∀ s : State, ∃ t, exec .reset s = .next t ∧ t.D.ALG = s.D.ALG ∧ t.D.H = iv s.D.ALG ∧ t.D.OCC = 0 ∧ t.D.LEN = 0#64 ∧
    t.D.PHASE = .absorb ∧ t.status.extractLsb' 9 1 = 0#1 ∧ t.busy = false ∧ sameKey s t ∧ sameError s t ∧
    sameScratch s t ∧ sameOutput s t ∧ sameHost s t ∧ t.din = s.din) ∧
  State.reset.D.ALG = .md5 ∧
  (∀ (w : Word32) (s : State), w.extractLsb' 0 4 = 0x2#4 →
    checkCommand w s = if w ≠ 0x00000002#32 then some .field else none)

/-- UPDATE takes the next `count` bytes of the data-in stream and `D` absorbs them; an empty payload changes nothing of
`D`; in FINAL the phase and the algorithm stay and the occupancy is in range, whatever else `D` then holds; nothing else
changes; its only error is `E_FIELD`, for `ALG` or `RSV` not 00 (`42_commands.md` section 2, R183). That it keeps `I` and
`O` is the model's choice, log entry 13. -/
def Obligations.UpdateAbsorbsPayload : Prop :=
  (∀ (count : Nat) (s : State), count ≤ s.din.length →
    ∃ t, exec (.update count) s = .next t ∧ t.din = s.din.drop count ∧ t.busy = false ∧
      t.D.PHASE = s.D.PHASE ∧ sameKey s t ∧ sameError s t ∧ sameScratch s t ∧ sameOutput s t ∧ sameHost s t ∧
      (s.D.PHASE = .absorb → count = 0 → t.D = s.D) ∧
      (s.D.PHASE = .absorb → s.D.Wf → sameMessage t.D (absorb s.D (s.din.take count)) ∧ t.D.ALG = s.D.ALG) ∧
      (s.D.PHASE = .final → t.D.ALG = s.D.ALG ∧ t.D.OCC < t.D.ALG.B)) ∧
  (∀ (w : Word32) (s : State), w.extractLsb' 0 4 = 0x3#4 →
    checkCommand w s = if w.extractLsb' 4 2 ≠ 0#2 ∨ w.extractLsb' 6 2 ≠ 0#2 then some .field else none)

/-- RESULT in ABSORB outputs the finalized digest of `D`, `N(D.ALG)` bytes, and leaves `D` FINAL with `OCC` 0 and `LEN`
kept; in FINAL it outputs as many bytes of any value; nothing else changes; its only error is `E_FIELD`, for any other
bit set (`42_commands.md` section 2, R184). That it keeps `I` and `O` is the model's choice, log entry 13. -/
def Obligations.ResultOutputsDigest : Prop :=
  (∀ s : State, ∃ t out, exec .result s = .next t ∧ wroteOutput out s t ∧ out.length = s.D.ALG.N ∧
    t.D.PHASE = .final ∧ t.status.extractLsb' 9 1 = 1#1 ∧ sameKey s t ∧ sameError s t ∧ sameScratch s t ∧ sameHost s t ∧
    t.din = s.din ∧
    (s.D.PHASE = .absorb → s.D.Wf → out = (finalize s.D).1 ∧ t.D.H = (finalize s.D).2.H ∧ t.D.OCC = 0 ∧
      t.D.LEN = s.D.LEN) ∧
    (s.D.Wf → t.D.ALG = s.D.ALG ∧ t.D.OCC < t.D.ALG.B)) ∧
  (∀ (w : Word32) (s : State), w.extractLsb' 0 4 = 0x4#4 →
    checkCommand w s = if w ≠ 0x00000004#32 then some .field else none)

/-- RESULT or UPDATE in FINAL records no error, consumes its payload, leaves `DFIN` at 1 and keeps the algorithm and
everything but `D`; RESULT outputs `N(D.ALG)` bytes, UPDATE none; no command but INIT and RESET leaves FINAL
(`60_exceptions.md` section 1, R229; `41_streaming.md` section 3, R161). That they keep `I` and `O` is the model's choice,
log entry 13. -/
def Obligations.MisuseIsNoError : Prop :=
  (∀ (i : Instr) (s : State), i.op = .result ∨ i.op = .update → s.D.PHASE = .final → i.count ≤ s.din.length →
    ∃ t, exec i s = .next t ∧ sameError s t ∧ t.status.extractLsb' 9 1 = 1#1 ∧ t.D.PHASE = .final ∧ t.D.ALG = s.D.ALG ∧
      t.D.OCC < t.D.ALG.B ∧ t.din = s.din.drop i.count ∧ sameKey s t ∧ sameScratch s t ∧ sameHost s t ∧
      (i.op = .update → sameOutput s t) ∧
      (i.op = .result → ∃ out, out.length = s.D.ALG.N ∧ wroteOutput out s t)) ∧
  (∀ (i : Instr) (s t : State), exec i s = .next t → s.D.PHASE = .final → i.op ≠ .init → i.op ≠ .reset →
    t.D.PHASE = .final)

/-- DIGEST takes its payload and outputs its digest under `ALG`, `N(ALG)` bytes; `D`, the key, the error record and `O` are
not changed; its only error is `E_FIELD`, for `RSV` not 00 (`42_commands.md` section 3, R185). That it keeps `O` is the
model's choice, log entry 13. -/
def Obligations.DigestCommandOutputsDigest : Prop :=
  (∀ (alg : Alg) (count : Nat) (s : State), count ≤ s.din.length →
    ∃ t, exec (.digest alg count) s = .next t ∧ wroteOutput (digest alg (s.din.take count)) s t ∧
      (digest alg (s.din.take count)).length = alg.N ∧ t.din = s.din.drop count ∧ t.D = s.D ∧ t.O = s.O ∧
      sameKey s t ∧ sameError s t ∧ sameHost s t) ∧
  (∀ (w : Word32) (s : State), w.extractLsb' 0 4 = 0x5#4 →
    checkCommand w s = if w.extractLsb' 6 2 ≠ 0#2 then some .field else none)

/-- The one-shot DIGEST outputs what INIT, UPDATE and RESULT output for the same payload, for every algorithm and payload,
the empty one among them (`41_streaming.md` section 4, R166). -/
def Obligations.OneShotEqualsStreaming : Prop :=
  ∀ (alg : Alg) (count : Nat) (s : State), count ≤ s.din.length →
    ∃ t s1 s2 s3 out, exec (.digest alg count) s = .next t ∧ exec (.init alg) s = .next s1 ∧
      exec (.update count) s1 = .next s2 ∧ exec .result s2 = .next s3 ∧
      t.output = s.output ++ out ∧ s3.output = s.output ++ out ∧ out.length = alg.N ∧ t.din = s3.din

/-- After RESET, whatever `D` held, UPDATE and RESULT output the digest of the UPDATE's payload alone
(`41_streaming.md` section 4, R165). -/
def Obligations.ResetIndependence : Prop :=
  ∀ (count : Nat) (s : State), count ≤ s.din.length →
    ∃ s1 s2 s3, exec .reset s = .next s1 ∧ exec (.update count) s1 = .next s2 ∧ exec .result s2 = .next s3 ∧
      s3.output = s.output ++ digest s.D.ALG (s.din.take count)

/-! ## The key and the HMAC engine -/

/-- HKEY stores the derived key with the inner pad: a secret of at most a block is padded with zeros, a longer one is
hashed first; `D`, `O`, the error record and the output are not changed; its only error is `E_FIELD`, for `RSV` not 00
(`42_commands.md` section 4, R186, R187). That it keeps `O` is the model's choice, log entry 13. -/
def Obligations.HkeyStoresPaddedKey : Prop :=
  (∀ (alg : Alg) (count : Nat) (s : State), count ≤ s.din.length → s.K.wf →
    ∃ t, exec (.hkey alg count) s = .next t ∧
      t.K = xorBytes (if count ≤ alg.B then s.din.take count ++ zeros (alg.B - count)
        else digest alg (s.din.take count) ++ zeros (alg.B - alg.N)) 0x36#8 ++ zeros (128 - alg.B) ∧
      t.KALG = alg ∧ t.KVALID = true ∧ t.status.extractLsb' 4 1 = 1#1 ∧ t.status.extractLsb' 5 2 = alg.code ∧
      t.din = s.din.drop count ∧ t.busy = false ∧ t.D = s.D ∧ t.O = s.O ∧ sameError s t ∧ sameOutput s t ∧
      sameHost s t) ∧
  (∀ (w : Word32) (s : State), w.extractLsb' 0 4 = 0x6#4 →
    checkCommand w s = if w.extractLsb' 6 2 ≠ 0#2 then some .field else none)

/-- HSIGN outputs the outer digest over the stored key XOR `0x36 XOR 0x5C` and the inner digest over the stored key and the
payload, `N(KALG)` bytes; `K`, `KALG`, `KVALID`, `D` and the error record are not changed; a malformed word is `E_FIELD`
(`42_commands.md` section 4, R188, R189). -/
def Obligations.HsignOutputsMac : Prop :=
  (∀ (count : Nat) (s : State), count ≤ s.din.length → s.KVALID = true →
    ∃ t mac, exec (.hsign count) s = .next t ∧ wroteOutput mac s t ∧ mac.length = s.KALG.N ∧
      mac = digest s.KALG (xorBytes (s.K.take s.KALG.B) (0x36#8 ^^^ 0x5C#8) ++
        digest s.KALG (s.K.take s.KALG.B ++ s.din.take count)) ∧
      t.din = s.din.drop count ∧ t.D = s.D ∧ sameKey s t ∧ sameError s t ∧ sameHost s t) ∧
  (∀ (w : Word32) (s : State), w.extractLsb' 0 4 = 0x7#4 →
    checkCommand w s = if w.extractLsb' 4 2 ≠ 0#2 ∨ w.extractLsb' 6 2 ≠ 0#2 then some .field
      else if s.KVALID then none else some .nokey)

/-- HKEY and then HSIGN output the HMAC of the message: the digest over `key XOR 0x5C` and the digest over `key XOR 0x36`
and the message, `key` being the secret padded, or hashed and padded (`42_commands.md` section 4, R188;
`30_encoding.md` section 5, R82). -/
def Obligations.KeyThenSignIsHmac : Prop :=
  ∀ (alg : Alg) (secret msg rest : List Byte) (s : State), s.K.wf → s.din = secret ++ msg ++ rest →
    let key := if secret.length ≤ alg.B then secret ++ zeros (alg.B - secret.length)
      else digest alg secret ++ zeros (alg.B - alg.N)
    ∃ t u, exec (.hkey alg secret.length) s = .next t ∧ exec (.hsign msg.length) t = .next u ∧
      wroteOutput (digest alg (xorBytes key 0x5C#8 ++ digest alg (xorBytes key 0x36#8 ++ msg))) t u ∧
      u.output = s.output ++ digest alg (xorBytes key 0x5C#8 ++ digest alg (xorBytes key 0x36#8 ++ msg)) ∧
      u.din = rest ∧ u.D = s.D

/-- R190: no HSIGN writes the key register, and the same message under the same key gives the same MAC on every call. -/
def Obligations.SigningKeepsKey : Prop :=
  (∀ (count : Nat) (s t : State), exec (.hsign count) s = .next t → sameKey s t) ∧
  (∀ (count : Nat) (s s' : State), s'.K = s.K → s'.KALG = s.KALG → s.KVALID = true → s'.KVALID = true →
    count ≤ s.din.length → count ≤ s'.din.length → s.din.take count = s'.din.take count →
    ∃ t t' mac, exec (.hsign count) s = .next t ∧ exec (.hsign count) s' = .next t' ∧
      t.output = s.output ++ mac ∧ t'.output = s'.output ++ mac)

/-- No command outputs the key (`60_exceptions.md` section 3, R234). Two states that differ in the key register alone are led
by every command, refused or not, to states that differ in it alone, but for an HSIGN that signs: it leads them to states
that differ in it and in the MAC alone, `N(KALG)` bytes written after all that was written before. The two runs draw the
same free values, so that a block whose unspecified values depend on the key is not spoken of: log entry 1. -/
def Obligations.KeyLeavesOnlyAsMac : Prop :=
  ∀ s s' : State, sameButKey s s' →
    (∀ i : Instr, i.op ≠ .hsign → nextSameButKey (exec i s) (exec i s')) ∧
    (∀ (e : CmdError) (count : Nat), nextSameButKey (refuseCommand e count s) (refuseCommand e count s')) ∧
    (∀ count : Nat, s.KVALID = false ∨ s.din.length < count →
      nextSameButKey (exec (.hsign count) s) (exec (.hsign count) s')) ∧
    (∀ count : Nat, s.KVALID = true → count ≤ s.din.length →
      ∃ t t' mac mac', exec (.hsign count) s = .next t ∧ exec (.hsign count) s' = .next t' ∧
        t.output = s.output ++ mac ∧ t'.output = s'.output ++ mac' ∧ mac.length = s.KALG.N ∧ mac'.length = s.KALG.N ∧
        wroteOutput mac s t ∧ wroteOutput mac' s' t' ∧ sameButKey t { t' with taken := t.taken, dout := t.dout })

/-! ## The error family -/

/-- R191: CLRERR clears `ERR` and `ERRCODE` and changes nothing else; with nothing recorded it changes nothing; a malformed
CLRERR is refused with `E_FIELD` and does not clear. -/
def Obligations.ClrerrClearsRecord : Prop :=
  (∀ s : State, ∃ t, exec .clrerr s = .next t ∧ t.ERR = false ∧ t.ERRCODE = 0b00#2 ∧ t.busy = false ∧ t.D = s.D ∧
    sameScratch s t ∧ sameKey s t ∧ sameOutput s t ∧ sameHost s t ∧ t.din = s.din ∧
    (s.ERR = false → s.ErrorWf → s.activity = .idle → t = s)) ∧
  (∀ (w : Word32) (s : State), w.extractLsb' 0 4 = 0xF#4 →
    checkCommand w s = if w ≠ 0x0000000F#32 then some .field else none) ∧
  (∀ (w : Word32) (s t : State), w.extractLsb' 0 4 = 0xF#4 → w ≠ 0x0000000F#32 → executeCommand w s = .next t →
    s.ERR = true → sameError s t)

/-! ## What no command of a kind changes -/

/-- The frame of every command, also where it waits for its payload: only INIT, RESET, UPDATE and RESULT change `D`; only
HKEY changes the key; only DIGEST, HKEY and HSIGN change `I`, only HSIGN changes `O`; only CLRERR, and an HSIGN refused
for want of a key, change the error record; only RESULT, DIGEST and HSIGN write output, and none takes back a byte
written; no command changes the host's side, its acceptance apart; a command takes its own payload from the data-in
stream or nothing. The model's choices: that a command which does not use `I` or `O` keeps it is log entry 13, and that a
waiting command has taken nothing is log entry 5. -/
def Obligations.CommandFrames : Prop :=
  ∀ (i : Instr) (s t : State), exec i s = .next t →
    (i.op ≠ .init → i.op ≠ .reset → i.op ≠ .update → i.op ≠ .result → t.D = s.D) ∧
    (i.op ≠ .hkey → sameKey s t) ∧
    (i.op ≠ .digest → i.op ≠ .hkey → i.op ≠ .hsign → t.I = s.I) ∧
    (i.op ≠ .hsign → t.O = s.O) ∧
    (i.op ≠ .clrerr → (i.op = .hsign → s.KVALID = true) → sameError s t) ∧
    (i.op ≠ .result → i.op ≠ .digest → i.op ≠ .hsign → sameOutput s t) ∧
    (∃ out, t.output = s.output ++ out) ∧
    sameHost s t ∧ (t.din = s.din.drop i.count ∨ t.din = s.din)

/-! ## The assembly language -/

/-- What each kind of line assembles to (`30_encoding.md` section 5, R81 to R83, R74): the commands its words decode to and
the payload of each, which the word counts; the payloads together are the bytes of the line; bytes that do not fit one
command are an error in every line but UPDATE and HASH, which are split. A transaction is offered as its word and its
bytes. The split is the model's choice, log entry 16: that UPDATE is split as HASH is, that every piece but the last has
16 777 215 bytes (R83 says at most), and that there is one piece where the bytes fit one command. -/
def Obligations.AssembledLinesAreFramed : Prop :=
  (∀ (l : AsmLine) (ts : List Transaction), assemble l = some ts → (∀ w bs, l ≠ .word w bs) →
    ∀ p ∈ ts, ∃ i, decode p.1 = .ok i ∧ i.count = p.2.length) ∧
  (∀ alg, assemblesTo (.init alg) [(.init alg, [])]) ∧ assemblesTo .reset [(.reset, [])] ∧
  assemblesTo .result [(.result, [])] ∧ assemblesTo .clrerr [(.clrerr, [])] ∧
  (∀ bs, ∃ ps, isSplit bs ps ∧ assemblesTo (.update bs) (ps.map fun p => (.update p.length, p))) ∧
  (∀ alg bs, (bs.length ≤ 16777215 → assemblesTo (.digest alg bs) [(.digest alg bs.length, bs)]) ∧
    (16777215 < bs.length → assemble (.digest alg bs) = none)) ∧
  (∀ alg bs, (bs.length ≤ 16777215 → assemblesTo (.hkey alg bs) [(.hkey alg bs.length, bs)]) ∧
    (16777215 < bs.length → assemble (.hkey alg bs) = none)) ∧
  (∀ bs, (bs.length ≤ 16777215 → assemblesTo (.hsign bs) [(.hsign bs.length, bs)]) ∧
    (16777215 < bs.length → assemble (.hsign bs) = none)) ∧
  (∀ w bs, (bs.length ≤ 16777215 → assemble (.word w bs) = some [(w, bs)]) ∧
    (16777215 < bs.length → assemble (.word w bs) = none)) ∧
  (∀ alg secret msg,
    (secret.length ≤ 16777215 → msg.length ≤ 16777215 →
      assemblesTo (.hmac alg secret msg) [(.hkey alg secret.length, secret), (.hsign msg.length, msg)]) ∧
    (16777215 < secret.length ∨ 16777215 < msg.length → assemble (.hmac alg secret msg) = none)) ∧
  (∀ alg bs, ∃ ps, isSplit bs ps ∧ assemblesTo (.hash alg bs)
    ((.init alg, []) :: (ps.map fun p => (.update p.length, p)) ++ [(.result, [])])) ∧
  (∀ (p : Transaction) (s : State), (offerTransaction p).foldl (fun s m => hostMove m s) s =
    { s with cmds := s.cmds ++ [p.1], din := s.din ++ p.2 })

/-- The pseudo-command HASH, assembled, offered and run, outputs the digest of its bytes, in however many UPDATEs it is
split (`30_encoding.md` section 5, R83). That each command takes one step is the model's choice, log entry 4; so is where
the bytes are split, log entry 16. -/
def Obligations.HashPseudoCommandOutputsDigest : Prop :=
  ∀ (alg : Alg) (bs : List Byte) (ts : List Transaction) (s : State), assemble (.hash alg bs) = some ts →
    s.script = [] → s.rst = false → s.activity = .idle → s.dout = [] → 64 ≤ s.credit →
    ∃ t, runSteps ts.length
        { s with cmds := ts.map (fun p => p.1), din := (ts.map (fun p => p.2)).flatten } = .next t ∧
      t.taken = s.taken ++ digest alg bs ∧ t.activity = .idle ∧ t.cmds = [] ∧ t.din = []

/-- The pseudo-command HMAC, assembled, offered and run, outputs the HMAC of its message under its secret, and leaves `D`
as it was (`30_encoding.md` section 5, R82). That each command takes one step is the model's choice, log entry 4. -/
def Obligations.HmacPseudoCommandOutputsMac : Prop :=
  ∀ (alg : Alg) (secret msg : List Byte) (ts : List Transaction) (s : State),
    assemble (.hmac alg secret msg) = some ts → s.K.wf →
    s.script = [] → s.rst = false → s.activity = .idle → s.dout = [] → 64 ≤ s.credit →
    ∃ t, runSteps ts.length
        { s with cmds := ts.map (fun p => p.1), din := (ts.map (fun p => p.2)).flatten } = .next t ∧
      t.taken = s.taken ++ hmacOf alg (if secret.length ≤ alg.B then secret ++ zeros (alg.B - secret.length)
        else digest alg secret ++ zeros (alg.B - alg.N)) msg ∧ t.activity = .idle ∧ t.cmds = [] ∧ t.din = [] ∧ t.D = s.D
end

