-- ==== Sys2Proof/Laws/Assembler.lean ====
section
/-! SUPPORT. The laws of the assembler (`30_encoding.md` R81 to R83): how bytes are split over UPDATE commands, and when a
payload fits one command. -/

namespace Sys2Proof.Machine

theorem assembleWord_of_le {w : Word32} {bs : List Byte} (h : bs.length ≤ maxPayload) :
    assembleWord w bs = some [(w, bs)] := if_pos h

theorem assembleWord_of_lt {w : Word32} {bs : List Byte} (h : maxPayload < bs.length) : assembleWord w bs = none :=
  if_neg (by omega)

/-- A count of at most `maxPayload` fits its field (R74). -/
theorem countFits_of_le {n : Nat} (h : n ≤ maxPayload) : countFits n = true := by
  simp only [countFits, maxPayload, decide_eq_true_eq] at *
  omega

/-- Consecutive pieces, where the fuel covers the bytes: together they are the bytes, each but the last has the size, and
one piece does where the bytes fit it. -/
theorem piecesOf_spec {size : Nat} (fuel : Nat) (bs : List Byte) (h : bs.length ≤ size * (fuel + 1)) :
    piecesOf size fuel bs ≠ [] ∧ (piecesOf size fuel bs).flatten = bs ∧ (∀ p ∈ piecesOf size fuel bs, p.length ≤ size) ∧
      (∀ p ∈ (piecesOf size fuel bs).dropLast, p.length = size) ∧ (bs.length ≤ size → piecesOf size fuel bs = [bs]) := by
  induction fuel generalizing bs with
  | zero => simpa [piecesOf] using h
  | succ fuel ih =>
    unfold piecesOf
    split
    · simp [*]
    · rename_i hlt
      obtain ⟨hne, hflat, hle, hlast, -⟩ := ih (bs.drop size) (by
        rw [List.length_drop]
        rw [Nat.mul_succ] at h
        omega)
      refine ⟨by simp, by simp [hflat], ?_, ?_, fun h => absurd h hlt⟩
      · simp only [List.mem_cons]
        rintro p (rfl | hp)
        · simp
        · exact hle p hp
      · rw [List.dropLast_cons_of_ne_nil hne]
        simp only [List.mem_cons]
        rintro p (rfl | hp)
        · simp; omega
        · exact hlast p hp

/-- The pieces of UPDATE are a split of its bytes (R83). -/
theorem updatePieces_isSplit (bs : List Byte) : isSplit bs (updatePieces bs) :=
  (piecesOf_spec _ bs (Nat.lt_mul_div_succ bs.length (by decide : 0 < maxPayload)).le).2

end Sys2Proof.Machine
end

