-- ==== Sys2Proof/Laws/Compression.lean ====
section
/-! SUPPORT. The laws of the message schedules (`40_compression.md`): what extending a schedule does, said once. -/

namespace Sys2Proof.Machine

@[simp] theorem wordsLE32_length (blk : List Byte) : (wordsLE32 blk).length = 16 := by simp [wordsLE32]

@[simp] theorem wordsBE32_length (blk : List Byte) : (wordsBE32 blk).length = 16 := by simp [wordsBE32]

@[simp] theorem wordsBE64_length (blk : List Byte) : (wordsBE64 blk).length = 16 := by simp [wordsBE64]

/-- A schedule extended by `k` words: the words given stay, and each further word follows from the words before it. -/
theorem extendSchedule_spec {w : Nat} (next : List (BitVec w) → BitVec w) (k : Nat) (W : List (BitVec w)) :
    (extendSchedule next k W).length = W.length + k ∧
      (∀ t < W.length, (extendSchedule next k W).getD t 0#w = W.getD t 0#w) ∧
      (∀ t, W.length ≤ t → t < W.length + k →
        (extendSchedule next k W).getD t 0#w = next ((extendSchedule next k W).take t)) := by
  induction k generalizing W with
  | zero => exact ⟨rfl, fun _ _ => rfl, fun t h1 h2 => by omega⟩
  | succ k ih =>
    obtain ⟨h1, h2, h3⟩ := ih (W ++ [next W])
    simp only [List.length_append, List.length_singleton] at h1 h2 h3
    unfold extendSchedule
    refine ⟨by omega, ?_, ?_⟩
    · intro t ht
      rw [h2 t (by omega)]
      simp only [List.getD_eq_getElem?_getD, List.getElem?_append_left ht]
    · intro t ht1 ht2
      by_cases ht : t = W.length
      · subst ht
        have htake : (extendSchedule next k (W ++ [next W])).take W.length = W := by
          apply List.ext_getElem
          · simp; omega
          · intro i hi1 hi2
            have := h2 i (by omega)
            simp only [List.getD_eq_getElem?_getD] at this
            rw [List.getElem?_eq_getElem (by omega), List.getElem?_append_left (by omega),
              List.getElem?_eq_getElem (by omega)] at this
            simpa using this
        rw [h2 _ (by omega), htake]
        simp
      · exact h3 t (by omega) (by omega)

/-- `W[t-k]` seen from the first `t` words is that of the whole schedule. -/
theorem back_take {w : Nat} (W : List (BitVec w)) {t k : Nat} (hk : 0 < k) (hkt : k ≤ t) (ht : t ≤ W.length) :
    back (W.take t) k = W.getD (t - k) 0#w := by
  unfold back
  simp only [List.getD_eq_getElem?_getD, List.length_take, Nat.min_eq_left ht]
  rw [List.getElem?_take_of_lt (by omega)]

end Sys2Proof.Machine
end

