-- ==== Sys2Proof/Laws/Decode.lean ====
section
/-! SUPPORT. The laws of the command word (`30_encoding.md`): a word is its four fields, a word fits its operation's mask
exactly if the fields that R76 fixes are 0, and what `decode`, `encode` and `checkCommand` answer in terms of the
fields. -/

namespace Sys2Proof

@[simp] theorem Alg.ofCode_code (a : Alg) : Alg.ofCode a.code = a := by cases a <;> decide

@[simp] theorem Alg.code_ofCode (c : BitVec 2) : (Alg.ofCode c).code = c := by revert c; decide

@[simp] theorem Op.ofCode_code (o : Op) : Op.ofCode o.code = some o := by cases o <;> decide

theorem Op.code_of_ofCode {c : BitVec 4} {o : Op} (h : Op.ofCode c = some o) : o.code = c := by
  revert c o; decide +revert

theorem Op.ofCode_eq_none_iff (c : BitVec 4) : Op.ofCode c = none ↔ c ∈ Machine.illegalOps := by revert c; decide

/-! ## A word as its fields -/

/-- A word from its four fields as bit vectors. -/
def fieldsWord (count : BitVec 24) (rsv alg : BitVec 2) (op : BitVec 4) : Word32 := count ++ rsv ++ alg ++ op

theorem packWord_eq (count : Nat) (rsv alg : BitVec 2) (op : BitVec 4) :
    packWord count rsv alg op = fieldsWord (BitVec.ofNat 24 count) rsv alg op := rfl

theorem append_inj {m n : Nat} {a a' : BitVec m} {b b' : BitVec n} : a ++ b = a' ++ b' ↔ a = a' ∧ b = b' := by
  constructor
  · intro h
    have h1 := congrArg (fun x => BitVec.extractLsb' n m x) h
    have h2 := congrArg (fun x => BitVec.setWidth n x) h
    simp only [BitVec.setWidth_append] at h1 h2
    constructor
    · simpa [BitVec.extractLsb'_append_eq_left] using h1
    · simpa using h2
  · rintro ⟨rfl, rfl⟩; rfl

theorem fieldsWord_inj {c c' : BitVec 24} {r r' a a' : BitVec 2} {o o' : BitVec 4} :
    fieldsWord c r a o = fieldsWord c' r' a' o' ↔ c = c' ∧ r = r' ∧ a = a' ∧ o = o' := by
  unfold fieldsWord
  rw [append_inj, append_inj, append_inj]
  tauto

theorem fieldsWord_and (c c' : BitVec 24) (r r' a a' : BitVec 2) (o o' : BitVec 4) :
    fieldsWord c r a o &&& fieldsWord c' r' a' o' = fieldsWord (c &&& c') (r &&& r') (a &&& a') (o &&& o') := by
  unfold fieldsWord
  rw [BitVec.and_append, BitVec.and_append, BitVec.and_append]

/-- Every word is made of its fields. -/
theorem eq_fieldsWord (w : Word32) :
    w = fieldsWord (w.extractLsb' 8 24) (w.extractLsb' 6 2) (w.extractLsb' 4 2) (w.extractLsb' 0 4) := by
  unfold fieldsWord
  apply BitVec.eq_of_getLsbD_eq
  intro i hi
  simp only [BitVec.getLsbD_append, BitVec.getLsbD_extractLsb']
  split_ifs with h1 h2 h3
  · simp [h1]
  · rw [decide_eq_true (by omega : i - 4 < 2), Bool.true_and]; congr 1; omega
  · rw [decide_eq_true (by omega : i - 4 - 2 < 2), Bool.true_and]; congr 1; omega
  · rw [decide_eq_true (by omega : i - 4 - 2 - 2 < 24), Bool.true_and]; congr 1; omega

theorem fieldsWord_fields (c : BitVec 24) (r a : BitVec 2) (o : BitVec 4) :
    (fieldsWord c r a o).extractLsb' 8 24 = c ∧ (fieldsWord c r a o).extractLsb' 6 2 = r ∧
      (fieldsWord c r a o).extractLsb' 4 2 = a ∧ (fieldsWord c r a o).extractLsb' 0 4 = o :=
  have h := fieldsWord_inj.mp (eq_fieldsWord (fieldsWord c r a o))
  ⟨h.1.symm, h.2.1.symm, h.2.2.1.symm, h.2.2.2.symm⟩

/-- Whether R76 requires `COUNT = 0` of an operation. -/
def Op.countless : Op → Bool
  | .init => true
  | .reset => true
  | .update => false
  | .result => true
  | .digest => false
  | .hkey => false
  | .hsign => false
  | .clrerr => true

/-- Whether R76 requires `ALG = 00` of an operation. -/
def Op.algless : Op → Bool
  | .init => false
  | .reset => true
  | .update => true
  | .result => true
  | .digest => false
  | .hkey => false
  | .hsign => true
  | .clrerr => true

/-- The fields of a word meet the constraints of R76 for an operation. -/
abbrev fieldsFit (o : Op) (w : Word32) : Prop :=
  w.extractLsb' 6 2 = 0#2 ∧ (o.algless → w.extractLsb' 4 2 = 0#2) ∧ (o.countless → w.extractLsb' 8 24 = 0#24)

/-- The mask and match of an operation say what its field constraints say (R76). -/
theorem mask_iff (o : Op) (w : Word32) :
    w &&& o.mask = o.pattern ↔ w.extractLsb' 0 4 = o.code ∧ fieldsFit o w := by
  generalize hc : w.extractLsb' 8 24 = c
  generalize hr : w.extractLsb' 6 2 = r
  generalize ha : w.extractLsb' 4 2 = a
  generalize ho : w.extractLsb' 0 4 = op
  have hw : w = fieldsWord c r a op := by rw [← hc, ← hr, ← ha, ← ho]; exact eq_fieldsWord w
  have hm : o.mask = fieldsWord (if o.countless then 0xFFFFFF#24 else 0#24) 3#2 (if o.algless then 3#2 else 0#2) 15#4 := by
    cases o <;> decide
  have hp : o.pattern = fieldsWord 0#24 0#2 0#2 o.code := by cases o <;> decide
  have h24 : c &&& 0xFFFFFF#24 = c := BitVec.and_allOnes
  have h2 : ∀ x : BitVec 2, x &&& 3#2 = x := by decide
  have h4 : op &&& 15#4 = op := BitVec.and_allOnes
  rw [hw, hm, hp, fieldsWord_and, fieldsWord_inj]
  rw [fieldsFit, ← hw, hc, hr, ha]
  cases o <;> simp [Op.countless, Op.algless, h24, h2, h4] <;> tauto

/-! ## The decoder by fields -/

theorem decode_eq_illop_iff (w : Word32) : decode w = .error .illop ↔ w.extractLsb' 0 4 ∈ Machine.illegalOps := by
  rw [← Op.ofCode_eq_none_iff]
  unfold decode opField
  split
  · simp [*]
  · rename_i o h
    split <;> simp [h]

/-- The decoder on a word whose operation field is legal. -/
theorem decode_of_code {w : Word32} {o : Op} (h : w.extractLsb' 0 4 = o.code) :
    decode w = if fieldsFit o w then .ok (o.instr (Alg.ofCode (w.extractLsb' 4 2)) (w.extractLsb' 8 24).toNat)
      else .error .field := by
  have ho : Op.ofCode (opField w) = some o := by rw [opField, h, Op.ofCode_code]
  have hm : w &&& o.mask = o.pattern ↔ fieldsFit o w := by rw [mask_iff, h]; simp
  unfold decode
  simp only [ho, hm]
  rfl

/-- Every word has an illegal operation or one of the eight. -/
theorem op_cases (w : Word32) : w.extractLsb' 0 4 ∈ Machine.illegalOps ∨ ∃ o : Op, w.extractLsb' 0 4 = o.code := by
  cases h : Op.ofCode (w.extractLsb' 0 4) with
  | none => exact .inl ((Op.ofCode_eq_none_iff _).mp h)
  | some o => exact .inr ⟨o, (Op.code_of_ofCode h).symm⟩

theorem code_not_illegal (o : Op) : o.code ∉ Machine.illegalOps := by cases o <;> decide

/-- The forms of R76 written out are those of the operations. -/
theorem breaksForm_iff (w : Word32) :
    Machine.breaksForm w ↔ ∃ o : Op, w.extractLsb' 0 4 = o.code ∧ ¬ fieldsFit o w := by
  have hforms : Machine.legalForms = Op.all.map fun o => (o.code, o.mask, o.pattern) := by decide
  unfold Machine.breaksForm
  rw [hforms]
  constructor
  · rintro ⟨f, hf, h1, h2⟩
    obtain ⟨o, -, rfl⟩ := List.mem_map.mp hf
    exact ⟨o, h1, fun hfit => h2 ((mask_iff o w).mpr ⟨h1, hfit⟩)⟩
  · rintro ⟨o, h1, h2⟩
    exact ⟨_, List.mem_map.mpr ⟨o, by cases o <;> decide, rfl⟩, h1, fun hm => h2 ((mask_iff o w).mp hm).2⟩

/-- `checkCommand` on a word whose operation field is legal. -/
theorem checkCommand_of_code {w : Word32} {o : Op} (h : w.extractLsb' 0 4 = o.code) (s : Machine.State) :
    Machine.checkCommand w s =
      if fieldsFit o w then (if o = .hsign ∧ s.KVALID = false then some .nokey else none) else some .field := by
  unfold Machine.checkCommand
  rw [decode_of_code h]
  by_cases hfit : fieldsFit o w
  · simp only [if_pos hfit]
    cases o <;> simp [Op.instr]
    cases s.KVALID <;> rfl
  · simp only [if_neg hfit]

theorem checkCommand_of_illegal {w : Word32} (h : w.extractLsb' 0 4 ∈ Machine.illegalOps) (s : Machine.State) :
    Machine.checkCommand w s = some .illop := by
  unfold Machine.checkCommand
  rw [(decode_eq_illop_iff w).mpr h]

/-! ## The encoder by fields -/

/-- The operation field of a command's word is its operation's code. -/
theorem encode_op (i : Instr) : (encode i).extractLsb' 0 4 = i.op.code := (fieldsWord_fields ..).2.2.2

/-- The algorithm field of a command's word is its selector, 00 where it takes none. -/
theorem encode_alg (i : Instr) : (encode i).extractLsb' 4 2 = i.algCode := (fieldsWord_fields ..).2.2.1

/-- The reserved field of a command's word is 00. -/
theorem encode_rsv (i : Instr) : (encode i).extractLsb' 6 2 = 0#2 := (fieldsWord_fields ..).2.1

/-- The count field of a command's word is its payload count. -/
theorem encode_count (i : Instr) : (encode i).extractLsb' 8 24 = BitVec.ofNat 24 i.count := (fieldsWord_fields ..).1

end Sys2Proof
end

