-- ==== Sys2Proof/Laws/Flags.lean ====
section
/-! SUPPORT. The laws of the `STATUS` word (`10_state.md` R32): each field read out of the word, and what a sample of it
keeps. -/

namespace Sys2Proof.Machine

/-- The fields of a word put together as `State.status` puts it. -/
theorem statusWord_fields : ∀ (dfin kvalid err busy : Bool) (dalg kalg code : BitVec 2),
    let st : Word32 := 0#22 ++ BitVec.ofBool dfin ++ dalg ++ kalg ++ BitVec.ofBool kvalid ++ code ++ BitVec.ofBool err ++
      BitVec.ofBool busy
    st.extractLsb' 0 1 = BitVec.ofBool busy ∧ st.extractLsb' 1 1 = BitVec.ofBool err ∧ st.extractLsb' 2 2 = code ∧
      st.extractLsb' 4 1 = BitVec.ofBool kvalid ∧ st.extractLsb' 5 2 = kalg ∧ st.extractLsb' 7 2 = dalg ∧
      st.extractLsb' 9 1 = BitVec.ofBool dfin ∧ st.extractLsb' 10 22 = 0#22 := by
  decide +kernel

/-- `STATUS.DALG` (R32). -/
theorem status_dalg (s : State) : s.status.extractLsb' 7 2 = s.D.ALG.code :=
  (statusWord_fields s.dfin s.KVALID s.ERR s.busy s.D.ALG.code s.KALG.code s.ERRCODE).2.2.2.2.2.1

/-- `STATUS.DFIN` (R32). -/
theorem status_dfin (s : State) : s.status.extractLsb' 9 1 = BitVec.ofBool s.dfin :=
  (statusWord_fields s.dfin s.KVALID s.ERR s.busy s.D.ALG.code s.KALG.code s.ERRCODE).2.2.2.2.2.2.1

/-- `STATUS.KVALID` and `STATUS.KALG` (R32). -/
theorem status_key (s : State) :
    s.status.extractLsb' 4 1 = BitVec.ofBool s.KVALID ∧ s.status.extractLsb' 5 2 = s.KALG.code :=
  have h := statusWord_fields s.dfin s.KVALID s.ERR s.busy s.D.ALG.code s.KALG.code s.ERRCODE
  ⟨h.2.2.2.1, h.2.2.2.2.1⟩

/-- The fields that may be free in a sample are five at most, and none of them is `BUSY` or a reserved bit (R258). -/
theorem unstableBits_mem (a : Activity) :
    unstableBits a ∈ [0#32, dalgBits ||| dfinBit, dfinBit, keyBits, errBits] := by
  cases a with
  | idle => simp [unstableBits]
  | running i => cases i <;> simp [unstableBits, statusWritten]
  | discarding => simp [unstableBits]
  | draining => simp [unstableBits]

end Sys2Proof.Machine
end

