-- ==== Sys2Proof/Laws/Memory.lean ====
section
/-! SUPPORT. The laws of the internal byte spaces (`00_scope.md` R10) and of byte sequences (R8, R9). -/

namespace Sys2Proof.Machine

@[simp] theorem zeros_length (n : Nat) : (zeros n).length = n := by simp [zeros]

@[simp] theorem xorBytes_length (s : List Byte) (c : Byte) : (xorBytes s c).length = s.length := by simp [xorBytes]

@[simp] theorem toLE_length {w : Nat} (x : BitVec w) (n : Nat) : (toLE x n).length = n := by simp [toLE]

@[simp] theorem toBE_length {w : Nat} (x : BitVec w) (n : Nat) : (toBE x n).length = n := by simp [toBE]

@[simp] theorem freeBytes_length (kind : Config.FreeKind) (draw start n : Nat) :
    (freeBytes kind draw start n).length = n := by simp [freeBytes]

theorem zeros_add (j k : Nat) : zeros (j + k) = zeros j ++ zeros k :=
  (List.replicate_append_replicate ..).symm

theorem byteAt_map_range (f : Nat → Byte) {n k : Nat} (h : k < n) : byteAt ((List.range n).map f) k = f k := by
  simp [byteAt, h]

theorem byteAt_append_left {s t : List Byte} {k : Nat} (h : k < s.length) : byteAt (s ++ t) k = byteAt s k := by
  simp only [byteAt, List.getD_eq_getElem?_getD, List.getElem?_append_left h]

theorem byteAt_append_right {s t : List Byte} {k : Nat} (h : s.length ≤ k) :
    byteAt (s ++ t) k = byteAt t (k - s.length) := by
  simp only [byteAt, List.getD_eq_getElem?_getD, List.getElem?_append_right h]

theorem byteAt_zeros (n k : Nat) : byteAt (zeros n) k = 0x00#8 := by
  simp only [byteAt, zeros, List.getD_eq_getElem?_getD, List.getElem?_replicate]
  split <;> rfl

/-- Byte `k` of the little-endian bytes of a word (R9). -/
theorem byteAt_toLE {w : Nat} (x : BitVec w) {n k : Nat} (h : k < n) :
    (byteAt (toLE x n) k).toNat = x.toNat / 256 ^ k % 256 := by
  rw [toLE, byteAt_map_range _ h, BitVec.toNat_setWidth, BitVec.toNat_ushiftRight, Nat.shiftRight_eq_div_pow,
    Nat.pow_mul]

/-- Byte `k` of the big-endian bytes of a word (R9). -/
theorem byteAt_toBE {w : Nat} (x : BitVec w) {n k : Nat} (h : k < n) :
    (byteAt (toBE x n) k).toNat = x.toNat / 256 ^ (n - 1 - k) % 256 := by
  rw [toBE, byteAt_map_range _ h, BitVec.toNat_setWidth, BitVec.toNat_ushiftRight, Nat.shiftRight_eq_div_pow,
    Nat.pow_mul]

/-- XOR with two pads in turn is XOR with their XOR. -/
theorem xorBytes_xorBytes (s : List Byte) (c d : Byte) : xorBytes (xorBytes s c) d = xorBytes s (c ^^^ d) := by
  simp [xorBytes, BitVec.xor_assoc]

theorem xorBytes_append (s t : List Byte) (c : Byte) : xorBytes (s ++ t) c = xorBytes s c ++ xorBytes t c := by
  simp [xorBytes]

/-- Every write inside a byte space keeps its size, and so its form. -/
theorem memWrite_length {m : Memory} {addr : Nat} {v : List Byte} (h : addr + v.length ≤ m.length) :
    (memWrite m addr v).length = m.length := by
  simp [memWrite]; omega

theorem memWrite_wf {m : Memory} {addr : Nat} {v : List Byte} (hm : m.wf) (h : addr + v.length ≤ spaceSize) :
    (memWrite m addr v).wf := by
  have : m.length = spaceSize := hm
  exact (memWrite_length (by omega)).trans this

/-- After a write the bytes up to its end are those before it and those written. -/
theorem memWrite_take {m : Memory} {addr : Nat} {v : List Byte} (h : addr ≤ m.length) :
    (memWrite m addr v).take (addr + v.length) = m.take addr ++ v := by
  have hl : (m.take addr ++ v).length = addr + v.length := by simp; omega
  rw [memWrite, ← hl, List.take_left]

theorem memWrite_length_ge {m : Memory} {addr : Nat} {v : List Byte} (h : addr ≤ m.length) :
    addr + v.length ≤ (memWrite m addr v).length := by
  simp [memWrite]; omega

theorem memRead_zero (m : Memory) (n : Nat) : memRead m 0 n = m.take n := by simp [memRead]

/-- What was written is what is read. -/
theorem memRead_memWrite {m : Memory} {addr : Nat} {v : List Byte} (h : addr ≤ m.length) :
    memRead (memWrite m addr v) addr v.length = v := by
  have hl : (m.take addr).length = addr := by simp; omega
  have h2 : (m.take addr ++ v ++ m.drop (addr + v.length)).drop addr = v ++ m.drop (addr + v.length) := by
    rw [List.append_assoc, List.drop_left' hl]
  simp only [memRead, memWrite, h2, List.take_left]

/-- A write leaves every byte outside it alone. -/
theorem byteAt_memWrite_of_outside {m : Memory} {addr : Nat} {v : List Byte} (h : addr + v.length ≤ m.length) {a : Nat}
    (ha : a < addr ∨ addr + v.length ≤ a) : byteAt (memWrite m addr v) a = byteAt m a := by
  simp only [byteAt, memWrite, List.getD_eq_getElem?_getD]
  congr 1
  rcases ha with ha | ha
  · rw [List.append_assoc, List.getElem?_append_left (by simp; omega), List.getElem?_take_of_lt ha]
  · rw [List.getElem?_append_right (by simp; omega), List.getElem?_drop]
    congr 1
    simp; omega

end Sys2Proof.Machine
end

