-- ==== Sys2Proof/Laws/Streaming.lean ====
section
/-! SUPPORT. The laws of the streaming and padding engine (`41_streaming.md`): what absorbing and padding do, said once as
feeding bytes one at a time to a chaining value and a partial block. -/

namespace Sys2Proof.Machine

/-! ## The algorithm tag never changes by compression -/

@[simp] theorem compress_alg (H : Chain) (blk : List Byte) : (compress H blk).alg = H.alg := by
  cases H <;> simp only [compress, Chain.alg]

@[simp] theorem iv_alg (alg : Alg) : (iv alg).alg = alg := by cases alg <;> rfl

@[simp] theorem freeChain_alg (alg : Alg) (d : Nat) : (freeChain alg d).alg = alg := by cases alg <;> rfl

theorem Alg.B_pos (alg : Alg) : 0 < alg.B := by cases alg <;> decide

theorem Alg.B_le (alg : Alg) : alg.B ≤ spaceSize := by cases alg <;> decide

theorem Alg.LF_lt_B (alg : Alg) : alg.LF < alg.B := by cases alg <;> decide

theorem Alg.N_le_B (alg : Alg) : alg.N ≤ alg.B := by cases alg <;> decide

theorem Alg.N_pos (alg : Alg) : 0 < alg.N := by cases alg <;> decide

@[simp] theorem lenField_length (alg : Alg) (len : Word64) : (lenField alg len).length = alg.LF := by
  cases alg <;> simp [lenField, Alg.LF]

@[simp] theorem serialize_length (H : Chain) : (serialize H).length = H.alg.N := by
  cases H <;> simp [serialize, Words4.words, Words5.words, Words8.words, Chain.alg, Alg.N]

/-! ## Blocks of a message -/

@[simp] theorem chainAfter_zero (B : Nat) (H : Chain) (P : List Byte) : chainAfter B 0 H P = H := rfl

/-- The first block first. -/
theorem chainAfter_succ (B k : Nat) (H : Chain) (P : List Byte) :
    chainAfter B (k + 1) H P = chainAfter B k (compress H (P.take B)) (P.drop B) := by
  simp [chainAfter, blocksOf, List.range_succ_eq_map, List.map_map, Function.comp_def, Nat.succ_mul, Nat.add_comm]

@[simp] theorem chainAfter_alg (B k : Nat) (H : Chain) (P : List Byte) : (chainAfter B k H P).alg = H.alg := by
  induction k generalizing H P with
  | zero => rfl
  | succ k ih => rw [chainAfter_succ, ih, compress_alg]

/-- Blocks in two runs. -/
theorem chainAfter_add (B j k : Nat) (H : Chain) (P : List Byte) :
    chainAfter B (j + k) H P = chainAfter B k (chainAfter B j H P) (P.drop (j * B)) := by
  induction j generalizing H P with
  | zero => simp
  | succ j ih =>
    rw [Nat.add_right_comm, chainAfter_succ, ih, chainAfter_succ, List.drop_drop]
    congr 2
    rw [Nat.succ_mul, Nat.add_comm]

/-- Only the bytes of the blocks matter. -/
theorem chainAfter_append (B k : Nat) (H : Chain) (P Q : List Byte) (h : k * B ≤ P.length) :
    chainAfter B k H (P ++ Q) = chainAfter B k H P := by
  induction k generalizing H P with
  | zero => rfl
  | succ k ih =>
    have hB : B ≤ P.length := by rw [Nat.succ_mul] at h; omega
    rw [chainAfter_succ, chainAfter_succ, List.take_append_of_le_length hB, List.drop_append_of_le_length hB]
    apply ih
    rw [Nat.succ_mul] at h
    simp; omega

theorem absorbBlocks_eq (B k : Nat) (H : Chain) (s : List Byte) :
    absorbBlocks B k H s = (chainAfter B k H s, s.drop (k * B)) := by
  induction k generalizing H s with
  | zero => simp [absorbBlocks]
  | succ k ih => rw [absorbBlocks, ih, chainAfter_succ, List.drop_drop, Nat.succ_mul, Nat.add_comm]

/-! ## Feeding bytes -/

/-- A chaining value and a partial block after one more byte: the block-boundary detector on plain data (R153). -/
def feedByte (B : Nat) (p : Chain × List Byte) (b : Byte) : Chain × List Byte :=
  if p.2.length + 1 = B then (compress p.1 (p.2 ++ [b]), []) else (p.1, p.2 ++ [b])

/-- A chaining value and a partial block after more bytes. -/
def feed (B : Nat) (p : Chain × List Byte) (s : List Byte) : Chain × List Byte := s.foldl (feedByte B) p

@[simp] theorem feed_nil (B : Nat) (p : Chain × List Byte) : feed B p [] = p := rfl

theorem feed_append (B : Nat) (p : Chain × List Byte) (s t : List Byte) :
    feed B p (s ++ t) = feed B (feed B p s) t := List.foldl_append

/-- The partial block and the bytes fed after it, cut into whole blocks and a tail. -/
theorem feed_eq {B : Nat} (H : Chain) (c s : List Byte) (hc : c.length < B) :
    feed B (H, c) s = (chainAfter B ((c ++ s).length / B) H (c ++ s), (c ++ s).drop ((c ++ s).length / B * B)) := by
  induction s generalizing H c with
  | nil => simp [Nat.div_eq_of_lt hc]
  | cons b s ih =>
    have hB : 0 < B := by omega
    have happ : c ++ b :: s = (c ++ [b]) ++ s := by simp
    show feed B (feedByte B (H, c) b) s = _
    by_cases h : c.length + 1 = B
    · have hlen : (c ++ b :: s).length = s.length + B := by simp; omega
      have hdiv : (c ++ b :: s).length / B = s.length / B + 1 := by rw [hlen, Nat.add_div_right _ hB]
      have hcb : (c ++ [b]).length = B := by simpa using h
      rw [feedByte, if_pos h, ih _ _ (by simpa using hB), hdiv, chainAfter_succ, happ, List.take_left' hcb, List.drop_left' hcb,
        Nat.succ_mul, Nat.add_comm, ← List.drop_drop, List.drop_left' hcb]
      simp
    · rw [feedByte, if_neg h, ih _ _ (by simp; omega), happ]

theorem feed_length {B : Nat} (H : Chain) (c s : List Byte) (hc : c.length < B) :
    (feed B (H, c) s).2.length = (c ++ s).length % B := by
  rw [feed_eq _ _ _ hc]
  have := Nat.div_add_mod (c ++ s).length B
  rw [Nat.mul_comm] at this
  simp only [List.length_drop]
  omega

theorem feed_length_lt {B : Nat} (H : Chain) (c s : List Byte) (hc : c.length < B) :
    (feed B (H, c) s).2.length < B := by
  rw [feed_length _ _ _ hc]; exact Nat.mod_lt _ (by omega)

/-! ## An instance as a chaining value and a partial block -/

/-- The unconsumed tail of the message (R25). -/
def Instance.tail (x : Instance) : List Byte := x.BUF.take x.OCC

/-- What a byte stream has made of an instance. -/
def Instance.view (x : Instance) : Chain × List Byte := (x.H, x.tail)

/-- The occupancy is in range and the buffer reaches up to it: what absorbing needs of an instance. -/
def Instance.Ready (x : Instance) : Prop := x.OCC < x.ALG.B ∧ x.OCC ≤ x.BUF.length

theorem Instance.Wf.ready {x : Instance} (h : x.Wf) : x.Ready := by
  refine ⟨h.2, ?_⟩
  have h1 : x.BUF.length = spaceSize := h.1
  have := Alg.B_le x.ALG
  have := h.2
  omega

theorem Instance.Ready.tail_length {x : Instance} (h : x.Ready) : x.tail.length = x.OCC := by
  simpa [Instance.tail] using h.2

theorem initInstance_ready (x : Instance) (alg : Alg) : (initInstance x alg).Ready := by
  refine ⟨?_, Nat.zero_le _⟩
  simpa [initInstance, Instance.ALG] using Alg.B_pos alg

theorem initInstance_view (x : Instance) (alg : Alg) : (initInstance x alg).view = (iv alg, []) := by
  simp [initInstance, Instance.view, Instance.tail]

theorem absorbWhole_spec (x : Instance) (s : List Byte) (h0 : x.OCC = 0) :
    (absorbWhole x s).view = feed x.ALG.B x.view s ∧ (absorbWhole x s).Ready ∧
      (absorbWhole x s).LEN = x.LEN ∧ (absorbWhole x s).PHASE = x.PHASE := by
  have hB := Alg.B_pos x.ALG
  have hv : x.view = (x.H, []) := by simp [Instance.view, Instance.tail, h0]
  have hf := feed_eq x.H [] s (B := x.ALG.B) (by simpa using hB)
  have htake := memWrite_take (m := x.BUF) (addr := 0) (v := s.drop (s.length / x.ALG.B * x.ALG.B)) (Nat.zero_le _)
  simp only [Nat.zero_add, List.take_zero, List.nil_append] at htake hf
  refine ⟨?_, ⟨?_, ?_⟩, rfl, rfl⟩
  · rw [hv, hf]
    simp only [Instance.view, Instance.tail, absorbWhole, absorbBlocks_eq, htake]
  · have := Nat.mod_lt s.length hB
    have := Nat.div_add_mod s.length x.ALG.B
    rw [Nat.mul_comm] at this
    simp only [absorbWhole, absorbBlocks_eq, Instance.ALG, chainAfter_alg, List.length_drop]
    simp only [Instance.ALG] at *
    omega
  · have := memWrite_length_ge (m := x.BUF) (addr := 0) (v := s.drop (s.length / x.ALG.B * x.ALG.B)) (Nat.zero_le _)
    simpa [absorbWhole, absorbBlocks_eq] using this

theorem absorbPartial_spec (x : Instance) (s : List Byte) (h : x.Ready) :
    (absorbPartial x s).view = feed x.ALG.B x.view s ∧ (absorbPartial x s).Ready ∧
      (absorbPartial x s).LEN = x.LEN ∧ (absorbPartial x s).PHASE = x.PHASE := by
  obtain ⟨hocc, hbuf⟩ := h
  have htl : x.tail.length = x.OCC := by simpa [Instance.tail] using hbuf
  let k := min (x.ALG.B - x.OCC) s.length
  have hk : (s.take k).length = k := by simp [k]
  let y : Instance := { x with BUF := memWrite x.BUF x.OCC (s.take k), OCC := x.OCC + k }
  have hyA : y.ALG = x.ALG := rfl
  have hytail : y.tail = x.tail ++ s.take k := by
    have := memWrite_take (m := x.BUF) (addr := x.OCC) (v := s.take k) hbuf
    rw [hk] at this
    exact this
  have hybuf : y.OCC ≤ y.BUF.length := by
    have := memWrite_length_ge (m := x.BUF) (addr := x.OCC) (v := s.take k) hbuf
    rw [hk] at this
    exact this
  have hdef : absorbPartial x s =
      if y.OCC < y.ALG.B then y else absorbWhole { compressBuffer y with OCC := 0 } (s.drop k) := rfl
  by_cases hlt : y.OCC < y.ALG.B
  · rw [hdef, if_pos hlt]
    have hks : k = s.length := by
      have : x.OCC + k < x.ALG.B := hlt
      simp only [k] at this ⊢
      omega
    refine ⟨?_, ⟨hlt, hybuf⟩, rfl, rfl⟩
    rw [Instance.view, Instance.view, feed_eq _ _ _ (by rw [htl]; exact hocc), hytail, hks, List.take_length]
    have hl : (x.tail ++ s).length < x.ALG.B := by
      have : x.OCC + k < x.ALG.B := hlt
      simp only [List.length_append, htl]; omega
    rw [Nat.div_eq_of_lt hl]
    simp [y]
  · rw [hdef, if_neg hlt]
    have hfull : x.OCC + k = x.ALG.B := by
      have : ¬ x.OCC + k < x.ALG.B := hlt
      simp only [k] at this ⊢
      omega
    obtain ⟨h1, h2, h3, h4⟩ := absorbWhole_spec { compressBuffer y with OCC := 0 } (s.drop k) rfl
    have hA : ({ compressBuffer y with OCC := 0 } : Instance).ALG = x.ALG := by
      simp [Instance.ALG, compressBuffer, y]
    refine ⟨?_, h2, h3, h4⟩
    rw [h1, hA]
    have hview : ({ compressBuffer y with OCC := 0 } : Instance).view = (compress x.H (x.tail ++ s.take k), []) := by
      have hread : memRead y.BUF 0 y.ALG.B = x.tail ++ s.take k := by
        rw [memRead_zero, ← hytail, Instance.tail, hyA, ← hfull]
      simp only [Instance.view, Instance.tail, List.take_zero, compressBuffer, hread]
      rfl
    have hcl : (x.tail ++ s.take k).length = x.ALG.B := by rw [List.length_append, htl, hk, hfull]
    have hfeed : feed x.ALG.B x.view (s.take k) = (compress x.H (x.tail ++ s.take k), []) := by
      rw [Instance.view, feed_eq _ _ _ (by rw [htl]; exact hocc), hcl, Nat.div_self (Alg.B_pos _), chainAfter_succ,
        ← hcl, List.take_length, Nat.one_mul, List.drop_length]
      rfl
    rw [hview, ← hfeed, ← feed_append, List.take_append_drop]

/-- Absorbing is feeding the bytes one by one (R151, R153), and it keeps the occupancy in range (R154). -/
theorem absorb_spec (x : Instance) (s : List Byte) (h : x.Ready) :
    (absorb x s).view = feed x.ALG.B x.view s ∧ (absorb x s).Ready ∧
      (absorb x s).LEN = x.LEN + BitVec.ofNat 64 s.length ∧ (absorb x s).PHASE = x.PHASE := by
  unfold absorb
  split
  · rename_i h0
    obtain rfl := List.length_eq_zero_iff.mp h0
    exact ⟨rfl, h, by simp, rfl⟩
  · dsimp only
    split
    · exact absorbPartial_spec { x with LEN := x.LEN + BitVec.ofNat 64 s.length } s h
    · rename_i h0
      exact absorbWhole_spec { x with LEN := x.LEN + BitVec.ofNat 64 s.length } s (Nat.eq_zero_of_not_pos h0)

theorem feed_alg {B : Nat} (p : Chain × List Byte) (s : List Byte) : (feed B p s).1.alg = p.1.alg := by
  induction s generalizing p with
  | nil => rfl
  | cons b s ih =>
    show (feed B (feedByte B p b) s).1.alg = _
    rw [ih]
    unfold feedByte
    split <;> simp

/-- Absorbing keeps the algorithm. -/
theorem absorb_ALG (x : Instance) (s : List Byte) (h : x.Ready) : (absorb x s).ALG = x.ALG := by
  have h1 := (absorb_spec x s h).1
  have : (absorb x s).view.1.alg = x.view.1.alg := by rw [h1, feed_alg]
  exact this

/-- The length counter, whatever the instance (R152). -/
theorem absorb_LEN (x : Instance) (s : List Byte) : (absorb x s).LEN = x.LEN + BitVec.ofNat 64 s.length := by
  unfold absorb
  split
  · rename_i h
    simp [h]
  · dsimp only
    split
    · unfold absorbPartial
      dsimp only
      split <;> rfl
    · rfl

/-! ## Buffer size -/

theorem absorbWhole_BUF_length (x : Instance) (s : List Byte) (h : x.BUF.wf) : (absorbWhole x s).BUF.wf := by
  have h1 := Nat.mod_lt s.length (Alg.B_pos x.ALG)
  have h2 := Alg.B_le x.ALG
  have h3 := Nat.div_add_mod s.length x.ALG.B
  rw [Nat.mul_comm] at h3
  simp only [absorbWhole, absorbBlocks_eq]
  exact memWrite_wf h (by simp only [List.length_drop]; omega)

theorem absorb_BUF_wf (x : Instance) (s : List Byte) (h : x.Wf) : (absorb x s).BUF.wf := by
  unfold absorb
  split
  · exact h.1
  · dsimp only
    split
    · unfold absorbPartial
      have hw : (memWrite x.BUF x.OCC (s.take (min (x.ALG.B - x.OCC) s.length))).wf := by
        refine memWrite_wf h.1 ?_
        have := Alg.B_le x.ALG
        have := h.2
        simp only [List.length_take]; omega
      dsimp only
      split
      · exact hw
      · exact absorbWhole_BUF_length _ _ hw
    · exact absorbWhole_BUF_length _ _ h.1

/-- Absorbing keeps the form of an instance (R26, R154). -/
theorem absorb_wf (x : Instance) (s : List Byte) (h : x.Wf) : (absorb x s).Wf :=
  ⟨absorb_BUF_wf x s h, (absorb_spec x s h.ready).2.1.1⟩

/-- Absorbing one byte with the block-boundary detector (R153) is feeding it. -/
theorem absorbByte_spec (x : Instance) (b : Byte) (h : x.Wf) :
    (absorbByte x b).view = feedByte x.ALG.B x.view b ∧ (absorbByte x b).Wf ∧ (absorbByte x b).ALG = x.ALG ∧
      (absorbByte x b).LEN = x.LEN + 1#64 ∧ (absorbByte x b).PHASE = x.PHASE := by
  have hr := h.ready
  have ht := hr.tail_length
  have hocc := h.2
  have hB := Alg.B_le x.ALG
  have htake := memWrite_take (m := x.BUF) (addr := x.OCC) (v := [b]) hr.2
  simp only [List.length_singleton] at htake
  have hw : (memWrite x.BUF x.OCC [b]).wf := memWrite_wf h.1 (by simp only [List.length_singleton]; omega)
  have hv : x.view.2.length = x.OCC := ht
  unfold absorbByte
  dsimp only
  by_cases hf : x.OCC + 1 = x.ALG.B
  · rw [if_pos hf, feedByte, if_pos (by rw [hv]; exact hf)]
    refine ⟨?_, ⟨hw, by simp [Alg.B_pos]⟩, by simp [compressBuffer, Instance.ALG], rfl, rfl⟩
    show (compress x.H (memRead (memWrite x.BUF x.OCC [b]) 0 x.ALG.B), List.take 0 _) = _
    rw [memRead_zero, ← hf, htake]
    rfl
  · rw [if_neg hf, feedByte, if_neg (by rw [hv]; exact hf)]
    refine ⟨?_, ⟨hw, ?_⟩, rfl, rfl, rfl⟩
    · show (x.H, List.take (x.OCC + 1) (memWrite x.BUF x.OCC [b])) = _
      rw [htake]
      rfl
    · show x.OCC + 1 < x.ALG.B
      omega

/-! ## Padding -/

/-- An instance read up to a position of the padding engine. -/
def viewAt (x : Instance) (pos : Nat) : Chain × List Byte := (x.H, x.BUF.take pos)

/-- What the padding engine needs of an instance and its position. -/
def PadReady (p : Instance × Nat) : Prop := p.2 < p.1.ALG.B ∧ p.2 ≤ p.1.BUF.length

theorem padByte_spec (b : Byte) (p : Instance × Nat) (h : PadReady p) :
    viewAt (padByte b p).1 (padByte b p).2 = feedByte p.1.ALG.B (viewAt p.1 p.2) b ∧ PadReady (padByte b p) ∧
      (padByte b p).1.ALG = p.1.ALG ∧ (padByte b p).1.LEN = p.1.LEN ∧
      (padByte b p).2 = (if p.2 + 1 = p.1.ALG.B then 0 else p.2 + 1) ∧
      (p.1.BUF.wf → (padByte b p).1.BUF.wf) := by
  obtain ⟨x, pos⟩ := p
  obtain ⟨hpos, hbuf⟩ := h
  dsimp only at hpos hbuf
  have htake := memWrite_take (m := x.BUF) (addr := pos) (v := [b]) hbuf
  have hge := memWrite_length_ge (m := x.BUF) (addr := pos) (v := [b]) hbuf
  simp only [List.length_singleton] at htake hge
  have hlen : (x.BUF.take pos).length = pos := by simpa using hbuf
  have hA : ({ x with BUF := memWrite x.BUF pos [b] } : Instance).ALG = x.ALG := rfl
  have hw : x.BUF.wf → (memWrite x.BUF pos [b]).wf := fun hw =>
    memWrite_wf hw (by have := Alg.B_le x.ALG; simp only [List.length_singleton]; omega)
  unfold padByte
  dsimp only
  rw [hA]
  by_cases hf : pos + 1 = x.ALG.B
  · rw [if_pos hf, if_pos hf]
    refine ⟨?_, ⟨Alg.B_pos _, Nat.zero_le _⟩, by simp [compressBuffer, Instance.ALG], rfl, rfl, hw⟩
    simp only [viewAt, feedByte, hlen, compressBuffer, hA, memRead_zero, List.take_zero, ← hf, htake, if_true]
  · rw [if_neg hf, if_neg hf]
    refine ⟨?_, ⟨?_, hge⟩, rfl, rfl, rfl, hw⟩
    · simp only [viewAt, feedByte, hlen, if_neg hf, htake]
    · show pos + 1 < x.ALG.B
      omega

/-- The number of zero bytes between a position and the target of the padding (R155, step 2). -/
def zerosNeeded (B pos target : Nat) : Nat := if pos ≤ target then target - pos else B - pos + target

theorem zeros_succ (n : Nat) : zeros (n + 1) = 0x00#8 :: zeros n := rfl

theorem zeroFill_spec (target fuel : Nat) (p : Instance × Nat) (h : PadReady p) (ht : target < p.1.ALG.B)
    (hfuel : zerosNeeded p.1.ALG.B p.2 target ≤ fuel) :
    let q := zeroFill target fuel p
    viewAt q.1 q.2 = feed p.1.ALG.B (viewAt p.1 p.2) (zeros (zerosNeeded p.1.ALG.B p.2 target)) ∧ PadReady q ∧
      q.1.ALG = p.1.ALG ∧ q.1.LEN = p.1.LEN ∧ q.2 = target ∧ (p.1.BUF.wf → q.1.BUF.wf) := by
  induction fuel generalizing p with
  | zero =>
    have hz : zerosNeeded p.1.ALG.B p.2 target = 0 := by omega
    have hp : p.2 = target := by
      have := h.1
      unfold zerosNeeded at hz
      split at hz <;> omega
    simp only [zeroFill, hz]
    exact ⟨rfl, h, trivial, trivial, hp, id⟩
  | succ fuel ih =>
    by_cases hp : p.2 = target
    · have hz : zerosNeeded p.1.ALG.B p.2 target = 0 := by simp [zerosNeeded, hp]
      simp only [zeroFill, if_pos hp, hz]
      exact ⟨rfl, h, trivial, trivial, hp, id⟩
    · obtain ⟨h1, h2, h3, h4, h5, h6⟩ := padByte_spec 0x00#8 p h
      have hpB : p.2 < p.1.ALG.B := h.1
      have hz : zerosNeeded p.1.ALG.B p.2 target = zerosNeeded p.1.ALG.B (padByte 0x00#8 p).2 target + 1 := by
        rw [h5]
        unfold zerosNeeded
        split_ifs <;> omega
      simp only [zeroFill, if_neg hp]
      obtain ⟨g1, g2, g3, g4, g5, g6⟩ := ih (padByte 0x00#8 p) h2 (by rw [h3]; exact ht) (by rw [h3]; omega)
      rw [h3] at g1 g3
      refine ⟨?_, g2, g3, g4.trans h4, g5, fun hw => g6 (h6 hw)⟩
      rw [g1, hz, h1, zeros_succ]
      rfl

/-- The padding of R155 as a byte sequence: marker, zeros, length field. -/
def paddingOf (alg : Alg) (occ : Nat) (len : Word64) : List Byte :=
  [0x80#8] ++ zeros (zerosNeeded alg.B (if occ + 1 = alg.B then 0 else occ + 1) (alg.B - alg.LF)) ++ lenField alg len

/-- Finalizing is feeding the padding, which ends on a block boundary (R155); the output is the serialized chaining
value. -/
theorem finalize_spec (x : Instance) (h : x.Ready) :
    ((finalize x).2.H, []) = feed x.ALG.B x.view (paddingOf x.ALG x.OCC x.LEN) ∧
      (finalize x).1 = serialize (finalize x).2.H ∧ (finalize x).2.OCC = 0 ∧ (finalize x).2.LEN = x.LEN ∧
      (finalize x).2.PHASE = .final ∧ (finalize x).2.ALG = x.ALG ∧ (x.BUF.wf → (finalize x).2.BUF.wf) := by
  have hLF := Alg.LF_lt_B x.ALG
  have hB := Alg.B_pos x.ALG
  have hLF0 : 0 < x.ALG.LF := by cases x.ALG <;> decide
  obtain ⟨h1, h2, h3, h4, h5, h6⟩ := padByte_spec 0x80#8 (x, x.OCC) h
  dsimp only at h1 h3 h4 h5 h6
  obtain ⟨g1, g2, g3, g4, g5, g6⟩ := zeroFill_spec (x.ALG.B - x.ALG.LF) x.ALG.B (padByte 0x80#8 (x, x.OCC)) h2
    (by rw [h3]; omega) (by rw [h3, h5]; unfold zerosNeeded; have := h.1; split_ifs <;> omega)
  generalize hq : zeroFill (x.ALG.B - x.ALG.LF) x.ALG.B (padByte 0x80#8 (x, x.OCC)) = q at g1 g2 g3 g4 g5 g6
  rw [h3] at g1 g3
  have hqA : q.1.ALG = x.ALG := g3
  have hfin : finalize x =
      (serialize (compress q.1.H (memRead (memWrite q.1.BUF (x.ALG.B - x.ALG.LF) (lenField x.ALG x.LEN)) 0 x.ALG.B)),
        { q.1 with
          BUF := memWrite q.1.BUF (x.ALG.B - x.ALG.LF) (lenField x.ALG x.LEN)
          H := compress q.1.H (memRead (memWrite q.1.BUF (x.ALG.B - x.ALG.LF) (lenField x.ALG x.LEN)) 0 x.ALG.B)
          OCC := 0
          PHASE := .final }) := by
    simp only [finalize, hq, compressBuffer]
    have : ({ q.1 with BUF := memWrite q.1.BUF (x.ALG.B - x.ALG.LF) (lenField x.ALG x.LEN) } : Instance).ALG = x.ALG := g3
    rw [this]
  have hqb : x.ALG.B - x.ALG.LF ≤ q.1.BUF.length := by have := g2.2; omega
  have hblk := memWrite_take (m := q.1.BUF) (addr := x.ALG.B - x.ALG.LF) (v := lenField x.ALG x.LEN) hqb
  have hsum : x.ALG.B - x.ALG.LF + (lenField x.ALG x.LEN).length = x.ALG.B := by rw [lenField_length]; omega
  rw [hsum] at hblk
  have hview : feed x.ALG.B x.view (paddingOf x.ALG x.OCC x.LEN) =
      feed x.ALG.B (viewAt q.1 q.2) (lenField x.ALG x.LEN) := by
    rw [paddingOf, feed_append, feed_append, g1, h1]
    rw [← h5]
    rfl
  rw [hfin, hview]
  refine ⟨?_, rfl, rfl, ?_, rfl, ?_, ?_⟩
  · have hc : (q.1.BUF.take (x.ALG.B - x.ALG.LF)).length = x.ALG.B - x.ALG.LF := by simp; omega
    have hcl : (q.1.BUF.take (x.ALG.B - x.ALG.LF) ++ lenField x.ALG x.LEN).length = x.ALG.B := by
      rw [List.length_append, hc]; exact hsum
    rw [g5, viewAt, feed_eq _ _ _ (by rw [hc]; omega), hcl, Nat.div_self hB, chainAfter_succ, memRead_zero, hblk, Nat.one_mul]
    simp only [chainAfter_zero, Prod.mk.injEq]
    constructor
    · congr 1
      exact (List.take_of_length_le (by omega)).symm
    · exact (List.drop_of_length_le (by omega)).symm
  · exact g4.trans h4
  · simp only [Instance.ALG, compress_alg]
    exact g3
  · intro hw
    refine memWrite_wf (g6 (h6 hw)) ?_
    have := Alg.B_le x.ALG
    omega

theorem finalize_wf (x : Instance) (h : x.Wf) : (finalize x).2.Wf := by
  obtain ⟨-, -, h0, -, -, hA, hw⟩ := finalize_spec x h.ready
  exact ⟨hw h.1, by rw [h0]; exact Alg.B_pos _⟩

theorem padByte_ALG (b : Byte) (p : Instance × Nat) : (padByte b p).1.ALG = p.1.ALG := by
  unfold padByte
  dsimp only
  split
  · simp [compressBuffer, Instance.ALG]
  · rfl

theorem zeroFill_ALG (target fuel : Nat) (p : Instance × Nat) : (zeroFill target fuel p).1.ALG = p.1.ALG := by
  induction fuel generalizing p with
  | zero => rfl
  | succ fuel ih =>
    unfold zeroFill
    split
    · rfl
    · rw [ih, padByte_ALG]

/-- Finalizing keeps the algorithm, whatever the instance. -/
theorem finalize_ALG (x : Instance) : (finalize x).2.ALG = x.ALG := by
  simp only [finalize, compressBuffer, Instance.ALG, compress_alg]
  exact (zeroFill_ALG _ _ _).trans (padByte_ALG _ _)

/-- The output size is the algorithm's, whatever the instance. -/
theorem finalize_length (x : Instance) : (finalize x).1.length = x.ALG.N := by
  have h : (finalize x).1 = serialize (finalize x).2.H := rfl
  rw [h, serialize_length]
  exact congrArg Alg.N (finalize_ALG x)

/-! ## Whole messages -/

/-- Absorbing in two calls is absorbing at once, on everything a rule defines. -/
theorem absorb_absorb_view (x : Instance) (s t : List Byte) (h : x.Ready) :
    (absorb (absorb x s) t).view = (absorb x (s ++ t)).view ∧ (absorb (absorb x s) t).LEN = (absorb x (s ++ t)).LEN := by
  obtain ⟨h1, h2, h3, -⟩ := absorb_spec x s h
  obtain ⟨g1, -, g3, -⟩ := absorb_spec (absorb x s) t h2
  obtain ⟨k1, -, k3, -⟩ := absorb_spec x (s ++ t) h
  refine ⟨?_, ?_⟩
  · rw [g1, h1, k1, absorb_ALG x s h, feed_append]
  · rw [g3, h3, k3, List.length_append, BitVec.ofNat_add, BitVec.add_assoc]

/-- The occupancy is the length of the tail. -/
theorem OCC_eq_of_view {x : Instance} (h : x.Ready) : x.OCC = x.view.2.length := h.tail_length.symm

/-- `Finalize` depends on the chaining value, the tail and the length counter alone (R156). -/
theorem finalize_congr {x y : Instance} (hx : x.Ready) (hy : y.Ready) (hv : x.view = y.view) (hl : x.LEN = y.LEN) :
    (finalize x).1 = (finalize y).1 ∧ (finalize x).2.H = (finalize y).2.H := by
  have hA : x.ALG = y.ALG := congrArg Chain.alg (congrArg Prod.fst hv)
  have hO : x.OCC = y.OCC := by rw [OCC_eq_of_view hx, OCC_eq_of_view hy, hv]
  obtain ⟨h1, h2, -⟩ := finalize_spec x hx
  obtain ⟨g1, g2, -⟩ := finalize_spec y hy
  rw [hv, hA, hO, hl, ← g1] at h1
  have hH := congrArg Prod.fst h1
  dsimp only at hH
  exact ⟨by rw [h2, g2, hH], hH⟩

/-- A digest does not depend on the instance it is computed on (R156, R163). -/
theorem digestOn_eq (x : Instance) (alg : Alg) (s : List Byte) : digestOn x alg s = digest alg s := by
  have key : ∀ y : Instance, (absorb (initInstance y alg) s).view = feed alg.B (iv alg, []) s ∧
      (absorb (initInstance y alg) s).Ready ∧ (absorb (initInstance y alg) s).LEN = 0#64 + BitVec.ofNat 64 s.length := by
    intro y
    obtain ⟨h1, h2, h3, -⟩ := absorb_spec (initInstance y alg) s (initInstance_ready y alg)
    refine ⟨?_, h2, h3⟩
    rw [h1, initInstance_view]
    simp [initInstance, Instance.ALG]
  obtain ⟨h1, h2, h3⟩ := key x
  obtain ⟨g1, g2, g3⟩ := key (freshInstance alg)
  exact (finalize_congr h2 g2 (h1.trans g1.symm) (h3.trans g3.symm)).1

@[simp] theorem digest_length (alg : Alg) (s : List Byte) : (digest alg s).length = alg.N := by
  rw [digest, digestOn, finalize_length, absorb_ALG _ _ (initInstance_ready _ _)]
  simp [initInstance, Instance.ALG]

/-- Absorbing two pieces and finalizing is digesting them together. -/
theorem finalize_absorb_absorb (x : Instance) (alg : Alg) (s t : List Byte) :
    (finalize (absorb (absorb (initInstance x alg) s) t)).1 = digest alg (s ++ t) := by
  have h0 := initInstance_ready x alg
  have h1 := (absorb_spec _ s h0).2.1
  obtain ⟨hv, hl⟩ := absorb_absorb_view (initInstance x alg) s t h0
  rw [(finalize_congr (absorb_spec _ t h1).2.1 (absorb_spec _ _ h0).2.1 hv hl).1]
  exact digestOn_eq x alg (s ++ t)

end Sys2Proof.Machine
end

