-- ==== Sys2Proof/Laws/Hmac.lean ====
section
/-! SUPPORT. The laws of the HMAC engine (`42_commands.md` R186 to R188). -/

namespace Sys2Proof.Machine

/-- The derived key with the digest in its closed form: independent of the instance it is computed on. -/
theorem deriveKey_eq (x : Instance) (alg : Alg) (secret : List Byte) :
    deriveKey x alg secret = if secret.length ≤ alg.B then secret ++ zeros (alg.B - secret.length)
      else digest alg secret ++ zeros (alg.B - alg.N) := by
  unfold deriveKey
  rw [digestOn_eq]

/-- A derived key is a block long. -/
@[simp] theorem deriveKey_length (x : Instance) (alg : Alg) (secret : List Byte) :
    (deriveKey x alg secret).length = alg.B := by
  rw [deriveKey_eq]
  have := Alg.N_le_B alg
  split <;> simp <;> omega

/-- The key register after HKEY: the padded key, then zeros. -/
theorem keyRegister_eq {alg : Alg} {k : List Byte} {old : Memory} (hk : k.length = alg.B) (ho : old.wf) :
    keyRegister alg k old = xorBytes k innerPad ++ zeros (spaceSize - alg.B) := by
  have ho' : old.length = 128 := ho
  have hB : alg.B = 64 ∨ alg.B = 128 := by cases alg <;> simp [Alg.B]
  unfold keyRegister
  dsimp only
  rcases hB with h | h
  · rw [if_pos (by rw [h]; decide), h]
    have hx : (xorBytes k innerPad).length = 64 := by rw [xorBytes_length, hk, h]
    simp only [memWrite, List.take_zero, List.nil_append, Nat.zero_add, zeros_length, hx, spaceSize]
    rw [List.take_left' hx, List.drop_of_length_le (by simp [hx, ho']), List.append_nil]
  · rw [if_neg (by rw [h]; decide), h]
    have hx : (xorBytes k innerPad).length = 128 := by rw [xorBytes_length, hk, h]
    simp only [memWrite, List.take_zero, List.nil_append, Nat.zero_add, hx, spaceSize]
    rw [List.drop_of_length_le (by rw [ho'])]
    rfl

/-- The MAC in closed form: independent of the instances it is computed on. -/
theorem sign_eq (x y : Instance) (K : Memory) (alg : Alg) (msg : List Byte) :
    sign x y K alg msg = digest alg (xorBytes (K.take alg.B) (innerPad ^^^ outerPad) ++
      digest alg (K.take alg.B ++ msg)) := by
  unfold sign
  dsimp only
  rw [finalize_absorb_absorb, finalize_absorb_absorb, memRead_zero]

@[simp] theorem sign_length (x y : Instance) (K : Memory) (alg : Alg) (msg : List Byte) :
    (sign x y K alg msg).length = alg.N := by rw [sign_eq, digest_length]

end Sys2Proof.Machine
end

