-- ==== Sys2Proof/Laws/State.lean ====
section
/-! SUPPORT. One lemma for each field and each named update of the state, so that no proof unfolds a record update. -/

namespace Sys2Proof.Machine.State

variable (s : State)

/-! ## setActivity -/

@[simp] theorem setActivity_D (a : Activity) : (s.setActivity a).D = s.D := rfl
@[simp] theorem setActivity_I (a : Activity) : (s.setActivity a).I = s.I := rfl
@[simp] theorem setActivity_O (a : Activity) : (s.setActivity a).O = s.O := rfl
@[simp] theorem setActivity_K (a : Activity) : (s.setActivity a).K = s.K := rfl
@[simp] theorem setActivity_KALG (a : Activity) : (s.setActivity a).KALG = s.KALG := rfl
@[simp] theorem setActivity_KVALID (a : Activity) : (s.setActivity a).KVALID = s.KVALID := rfl
@[simp] theorem setActivity_ERR (a : Activity) : (s.setActivity a).ERR = s.ERR := rfl
@[simp] theorem setActivity_ERRCODE (a : Activity) : (s.setActivity a).ERRCODE = s.ERRCODE := rfl
@[simp] theorem setActivity_activity (a : Activity) : (s.setActivity a).activity = a := rfl
@[simp] theorem setActivity_din (a : Activity) : (s.setActivity a).din = s.din := rfl
@[simp] theorem setActivity_dout (a : Activity) : (s.setActivity a).dout = s.dout := rfl
@[simp] theorem setActivity_cmds (a : Activity) : (s.setActivity a).cmds = s.cmds := rfl
@[simp] theorem setActivity_rst (a : Activity) : (s.setActivity a).rst = s.rst := rfl
@[simp] theorem setActivity_credit (a : Activity) : (s.setActivity a).credit = s.credit := rfl
@[simp] theorem setActivity_taken (a : Activity) : (s.setActivity a).taken = s.taken := rfl
@[simp] theorem setActivity_sampled (a : Activity) : (s.setActivity a).sampled = s.sampled := rfl
@[simp] theorem setActivity_script (a : Activity) : (s.setActivity a).script = s.script := rfl
@[simp] theorem setActivity_draws (a : Activity) : (s.setActivity a).draws = s.draws := rfl

/-! ## setD -/

@[simp] theorem setD_D (x : Instance) : (s.setD x).D = x := rfl
@[simp] theorem setD_I (x : Instance) : (s.setD x).I = s.I := rfl
@[simp] theorem setD_O (x : Instance) : (s.setD x).O = s.O := rfl
@[simp] theorem setD_K (x : Instance) : (s.setD x).K = s.K := rfl
@[simp] theorem setD_KALG (x : Instance) : (s.setD x).KALG = s.KALG := rfl
@[simp] theorem setD_KVALID (x : Instance) : (s.setD x).KVALID = s.KVALID := rfl
@[simp] theorem setD_ERR (x : Instance) : (s.setD x).ERR = s.ERR := rfl
@[simp] theorem setD_ERRCODE (x : Instance) : (s.setD x).ERRCODE = s.ERRCODE := rfl
@[simp] theorem setD_activity (x : Instance) : (s.setD x).activity = s.activity := rfl
@[simp] theorem setD_din (x : Instance) : (s.setD x).din = s.din := rfl
@[simp] theorem setD_dout (x : Instance) : (s.setD x).dout = s.dout := rfl
@[simp] theorem setD_cmds (x : Instance) : (s.setD x).cmds = s.cmds := rfl
@[simp] theorem setD_rst (x : Instance) : (s.setD x).rst = s.rst := rfl
@[simp] theorem setD_credit (x : Instance) : (s.setD x).credit = s.credit := rfl
@[simp] theorem setD_taken (x : Instance) : (s.setD x).taken = s.taken := rfl
@[simp] theorem setD_sampled (x : Instance) : (s.setD x).sampled = s.sampled := rfl
@[simp] theorem setD_script (x : Instance) : (s.setD x).script = s.script := rfl
@[simp] theorem setD_draws (x : Instance) : (s.setD x).draws = s.draws := rfl

/-! ## setI -/

@[simp] theorem setI_D (x : Instance) : (s.setI x).D = s.D := rfl
@[simp] theorem setI_I (x : Instance) : (s.setI x).I = x := rfl
@[simp] theorem setI_O (x : Instance) : (s.setI x).O = s.O := rfl
@[simp] theorem setI_K (x : Instance) : (s.setI x).K = s.K := rfl
@[simp] theorem setI_KALG (x : Instance) : (s.setI x).KALG = s.KALG := rfl
@[simp] theorem setI_KVALID (x : Instance) : (s.setI x).KVALID = s.KVALID := rfl
@[simp] theorem setI_ERR (x : Instance) : (s.setI x).ERR = s.ERR := rfl
@[simp] theorem setI_ERRCODE (x : Instance) : (s.setI x).ERRCODE = s.ERRCODE := rfl
@[simp] theorem setI_activity (x : Instance) : (s.setI x).activity = s.activity := rfl
@[simp] theorem setI_din (x : Instance) : (s.setI x).din = s.din := rfl
@[simp] theorem setI_dout (x : Instance) : (s.setI x).dout = s.dout := rfl
@[simp] theorem setI_cmds (x : Instance) : (s.setI x).cmds = s.cmds := rfl
@[simp] theorem setI_rst (x : Instance) : (s.setI x).rst = s.rst := rfl
@[simp] theorem setI_credit (x : Instance) : (s.setI x).credit = s.credit := rfl
@[simp] theorem setI_taken (x : Instance) : (s.setI x).taken = s.taken := rfl
@[simp] theorem setI_sampled (x : Instance) : (s.setI x).sampled = s.sampled := rfl
@[simp] theorem setI_script (x : Instance) : (s.setI x).script = s.script := rfl
@[simp] theorem setI_draws (x : Instance) : (s.setI x).draws = s.draws := rfl

/-! ## setO -/

@[simp] theorem setO_D (x : Instance) : (s.setO x).D = s.D := rfl
@[simp] theorem setO_I (x : Instance) : (s.setO x).I = s.I := rfl
@[simp] theorem setO_O (x : Instance) : (s.setO x).O = x := rfl
@[simp] theorem setO_K (x : Instance) : (s.setO x).K = s.K := rfl
@[simp] theorem setO_KALG (x : Instance) : (s.setO x).KALG = s.KALG := rfl
@[simp] theorem setO_KVALID (x : Instance) : (s.setO x).KVALID = s.KVALID := rfl
@[simp] theorem setO_ERR (x : Instance) : (s.setO x).ERR = s.ERR := rfl
@[simp] theorem setO_ERRCODE (x : Instance) : (s.setO x).ERRCODE = s.ERRCODE := rfl
@[simp] theorem setO_activity (x : Instance) : (s.setO x).activity = s.activity := rfl
@[simp] theorem setO_din (x : Instance) : (s.setO x).din = s.din := rfl
@[simp] theorem setO_dout (x : Instance) : (s.setO x).dout = s.dout := rfl
@[simp] theorem setO_cmds (x : Instance) : (s.setO x).cmds = s.cmds := rfl
@[simp] theorem setO_rst (x : Instance) : (s.setO x).rst = s.rst := rfl
@[simp] theorem setO_credit (x : Instance) : (s.setO x).credit = s.credit := rfl
@[simp] theorem setO_taken (x : Instance) : (s.setO x).taken = s.taken := rfl
@[simp] theorem setO_sampled (x : Instance) : (s.setO x).sampled = s.sampled := rfl
@[simp] theorem setO_script (x : Instance) : (s.setO x).script = s.script := rfl
@[simp] theorem setO_draws (x : Instance) : (s.setO x).draws = s.draws := rfl

/-! ## setKey -/

@[simp] theorem setKey_D (k : Memory) (alg : Alg) : (s.setKey k alg).D = s.D := rfl
@[simp] theorem setKey_I (k : Memory) (alg : Alg) : (s.setKey k alg).I = s.I := rfl
@[simp] theorem setKey_O (k : Memory) (alg : Alg) : (s.setKey k alg).O = s.O := rfl
@[simp] theorem setKey_K (k : Memory) (alg : Alg) : (s.setKey k alg).K = k := rfl
@[simp] theorem setKey_KALG (k : Memory) (alg : Alg) : (s.setKey k alg).KALG = alg := rfl
@[simp] theorem setKey_KVALID (k : Memory) (alg : Alg) : (s.setKey k alg).KVALID = true := rfl
@[simp] theorem setKey_ERR (k : Memory) (alg : Alg) : (s.setKey k alg).ERR = s.ERR := rfl
@[simp] theorem setKey_ERRCODE (k : Memory) (alg : Alg) : (s.setKey k alg).ERRCODE = s.ERRCODE := rfl
@[simp] theorem setKey_activity (k : Memory) (alg : Alg) : (s.setKey k alg).activity = s.activity := rfl
@[simp] theorem setKey_din (k : Memory) (alg : Alg) : (s.setKey k alg).din = s.din := rfl
@[simp] theorem setKey_dout (k : Memory) (alg : Alg) : (s.setKey k alg).dout = s.dout := rfl
@[simp] theorem setKey_cmds (k : Memory) (alg : Alg) : (s.setKey k alg).cmds = s.cmds := rfl
@[simp] theorem setKey_rst (k : Memory) (alg : Alg) : (s.setKey k alg).rst = s.rst := rfl
@[simp] theorem setKey_credit (k : Memory) (alg : Alg) : (s.setKey k alg).credit = s.credit := rfl
@[simp] theorem setKey_taken (k : Memory) (alg : Alg) : (s.setKey k alg).taken = s.taken := rfl
@[simp] theorem setKey_sampled (k : Memory) (alg : Alg) : (s.setKey k alg).sampled = s.sampled := rfl
@[simp] theorem setKey_script (k : Memory) (alg : Alg) : (s.setKey k alg).script = s.script := rfl
@[simp] theorem setKey_draws (k : Memory) (alg : Alg) : (s.setKey k alg).draws = s.draws := rfl

/-! ## setError -/

@[simp] theorem setError_D (err : Bool) (code : BitVec 2) : (s.setError err code).D = s.D := rfl
@[simp] theorem setError_I (err : Bool) (code : BitVec 2) : (s.setError err code).I = s.I := rfl
@[simp] theorem setError_O (err : Bool) (code : BitVec 2) : (s.setError err code).O = s.O := rfl
@[simp] theorem setError_K (err : Bool) (code : BitVec 2) : (s.setError err code).K = s.K := rfl
@[simp] theorem setError_KALG (err : Bool) (code : BitVec 2) : (s.setError err code).KALG = s.KALG := rfl
@[simp] theorem setError_KVALID (err : Bool) (code : BitVec 2) : (s.setError err code).KVALID = s.KVALID := rfl
@[simp] theorem setError_ERR (err : Bool) (code : BitVec 2) : (s.setError err code).ERR = err := rfl
@[simp] theorem setError_ERRCODE (err : Bool) (code : BitVec 2) : (s.setError err code).ERRCODE = code := rfl
@[simp] theorem setError_activity (err : Bool) (code : BitVec 2) : (s.setError err code).activity = s.activity := rfl
@[simp] theorem setError_din (err : Bool) (code : BitVec 2) : (s.setError err code).din = s.din := rfl
@[simp] theorem setError_dout (err : Bool) (code : BitVec 2) : (s.setError err code).dout = s.dout := rfl
@[simp] theorem setError_cmds (err : Bool) (code : BitVec 2) : (s.setError err code).cmds = s.cmds := rfl
@[simp] theorem setError_rst (err : Bool) (code : BitVec 2) : (s.setError err code).rst = s.rst := rfl
@[simp] theorem setError_credit (err : Bool) (code : BitVec 2) : (s.setError err code).credit = s.credit := rfl
@[simp] theorem setError_taken (err : Bool) (code : BitVec 2) : (s.setError err code).taken = s.taken := rfl
@[simp] theorem setError_sampled (err : Bool) (code : BitVec 2) : (s.setError err code).sampled = s.sampled := rfl
@[simp] theorem setError_script (err : Bool) (code : BitVec 2) : (s.setError err code).script = s.script := rfl
@[simp] theorem setError_draws (err : Bool) (code : BitVec 2) : (s.setError err code).draws = s.draws := rfl

/-! ## drawn -/

@[simp] theorem drawn_D (k : Nat) : (s.drawn k).D = s.D := rfl
@[simp] theorem drawn_I (k : Nat) : (s.drawn k).I = s.I := rfl
@[simp] theorem drawn_O (k : Nat) : (s.drawn k).O = s.O := rfl
@[simp] theorem drawn_K (k : Nat) : (s.drawn k).K = s.K := rfl
@[simp] theorem drawn_KALG (k : Nat) : (s.drawn k).KALG = s.KALG := rfl
@[simp] theorem drawn_KVALID (k : Nat) : (s.drawn k).KVALID = s.KVALID := rfl
@[simp] theorem drawn_ERR (k : Nat) : (s.drawn k).ERR = s.ERR := rfl
@[simp] theorem drawn_ERRCODE (k : Nat) : (s.drawn k).ERRCODE = s.ERRCODE := rfl
@[simp] theorem drawn_activity (k : Nat) : (s.drawn k).activity = s.activity := rfl
@[simp] theorem drawn_din (k : Nat) : (s.drawn k).din = s.din := rfl
@[simp] theorem drawn_dout (k : Nat) : (s.drawn k).dout = s.dout := rfl
@[simp] theorem drawn_cmds (k : Nat) : (s.drawn k).cmds = s.cmds := rfl
@[simp] theorem drawn_rst (k : Nat) : (s.drawn k).rst = s.rst := rfl
@[simp] theorem drawn_credit (k : Nat) : (s.drawn k).credit = s.credit := rfl
@[simp] theorem drawn_taken (k : Nat) : (s.drawn k).taken = s.taken := rfl
@[simp] theorem drawn_sampled (k : Nat) : (s.drawn k).sampled = s.sampled := rfl
@[simp] theorem drawn_script (k : Nat) : (s.drawn k).script = s.script := rfl
@[simp] theorem drawn_draws (k : Nat) : (s.drawn k).draws = s.draws + k := rfl

/-! ## dropInput -/

@[simp] theorem dropInput_D (n : Nat) : (s.dropInput n).D = s.D := rfl
@[simp] theorem dropInput_I (n : Nat) : (s.dropInput n).I = s.I := rfl
@[simp] theorem dropInput_O (n : Nat) : (s.dropInput n).O = s.O := rfl
@[simp] theorem dropInput_K (n : Nat) : (s.dropInput n).K = s.K := rfl
@[simp] theorem dropInput_KALG (n : Nat) : (s.dropInput n).KALG = s.KALG := rfl
@[simp] theorem dropInput_KVALID (n : Nat) : (s.dropInput n).KVALID = s.KVALID := rfl
@[simp] theorem dropInput_ERR (n : Nat) : (s.dropInput n).ERR = s.ERR := rfl
@[simp] theorem dropInput_ERRCODE (n : Nat) : (s.dropInput n).ERRCODE = s.ERRCODE := rfl
@[simp] theorem dropInput_activity (n : Nat) : (s.dropInput n).activity = s.activity := rfl
@[simp] theorem dropInput_din (n : Nat) : (s.dropInput n).din = s.din.drop n := rfl
@[simp] theorem dropInput_dout (n : Nat) : (s.dropInput n).dout = s.dout := rfl
@[simp] theorem dropInput_cmds (n : Nat) : (s.dropInput n).cmds = s.cmds := rfl
@[simp] theorem dropInput_rst (n : Nat) : (s.dropInput n).rst = s.rst := rfl
@[simp] theorem dropInput_credit (n : Nat) : (s.dropInput n).credit = s.credit := rfl
@[simp] theorem dropInput_taken (n : Nat) : (s.dropInput n).taken = s.taken := rfl
@[simp] theorem dropInput_sampled (n : Nat) : (s.dropInput n).sampled = s.sampled := rfl
@[simp] theorem dropInput_script (n : Nat) : (s.dropInput n).script = s.script := rfl
@[simp] theorem dropInput_draws (n : Nat) : (s.dropInput n).draws = s.draws := rfl

/-! ## complete -/

@[simp] theorem complete_D : s.complete.D = s.D := rfl
@[simp] theorem complete_I : s.complete.I = s.I := rfl
@[simp] theorem complete_O : s.complete.O = s.O := rfl
@[simp] theorem complete_K : s.complete.K = s.K := rfl
@[simp] theorem complete_KALG : s.complete.KALG = s.KALG := rfl
@[simp] theorem complete_KVALID : s.complete.KVALID = s.KVALID := rfl
@[simp] theorem complete_ERR : s.complete.ERR = s.ERR := rfl
@[simp] theorem complete_ERRCODE : s.complete.ERRCODE = s.ERRCODE := rfl
@[simp] theorem complete_activity : s.complete.activity = .idle := rfl
@[simp] theorem complete_din : s.complete.din = s.din := rfl
@[simp] theorem complete_dout : s.complete.dout = s.dout := rfl
@[simp] theorem complete_cmds : s.complete.cmds = s.cmds := rfl
@[simp] theorem complete_rst : s.complete.rst = s.rst := rfl
@[simp] theorem complete_credit : s.complete.credit = s.credit := rfl
@[simp] theorem complete_taken : s.complete.taken = s.taken := rfl
@[simp] theorem complete_sampled : s.complete.sampled = s.sampled := rfl
@[simp] theorem complete_script : s.complete.script = s.script := rfl
@[simp] theorem complete_draws : s.complete.draws = s.draws := rfl

/-! ## drain -/

@[simp] theorem drain_D : s.drain.D = s.D := rfl
@[simp] theorem drain_I : s.drain.I = s.I := rfl
@[simp] theorem drain_O : s.drain.O = s.O := rfl
@[simp] theorem drain_K : s.drain.K = s.K := rfl
@[simp] theorem drain_KALG : s.drain.KALG = s.KALG := rfl
@[simp] theorem drain_KVALID : s.drain.KVALID = s.KVALID := rfl
@[simp] theorem drain_ERR : s.drain.ERR = s.ERR := rfl
@[simp] theorem drain_ERRCODE : s.drain.ERRCODE = s.ERRCODE := rfl
@[simp] theorem drain_activity : s.drain.activity = if s.dout.length ≤ s.credit then .idle else .draining := rfl
@[simp] theorem drain_din : s.drain.din = s.din := rfl
@[simp] theorem drain_dout : s.drain.dout = s.dout.drop s.credit := rfl
@[simp] theorem drain_cmds : s.drain.cmds = s.cmds := rfl
@[simp] theorem drain_rst : s.drain.rst = s.rst := rfl
@[simp] theorem drain_credit : s.drain.credit = s.credit - s.dout.length := rfl
@[simp] theorem drain_taken : s.drain.taken = s.taken ++ s.dout.take s.credit := rfl
@[simp] theorem drain_sampled : s.drain.sampled = s.sampled := rfl
@[simp] theorem drain_script : s.drain.script = s.script := rfl
@[simp] theorem drain_draws : s.drain.draws = s.draws := rfl

/-! ## emit -/

@[simp] theorem emit_D (out : List Byte) : (s.emit out).D = s.D := rfl
@[simp] theorem emit_I (out : List Byte) : (s.emit out).I = s.I := rfl
@[simp] theorem emit_O (out : List Byte) : (s.emit out).O = s.O := rfl
@[simp] theorem emit_K (out : List Byte) : (s.emit out).K = s.K := rfl
@[simp] theorem emit_KALG (out : List Byte) : (s.emit out).KALG = s.KALG := rfl
@[simp] theorem emit_KVALID (out : List Byte) : (s.emit out).KVALID = s.KVALID := rfl
@[simp] theorem emit_ERR (out : List Byte) : (s.emit out).ERR = s.ERR := rfl
@[simp] theorem emit_ERRCODE (out : List Byte) : (s.emit out).ERRCODE = s.ERRCODE := rfl
@[simp] theorem emit_activity (out : List Byte) : (s.emit out).activity = if (s.dout ++ out).length ≤ s.credit then .idle else .draining := rfl
@[simp] theorem emit_din (out : List Byte) : (s.emit out).din = s.din := rfl
@[simp] theorem emit_dout (out : List Byte) : (s.emit out).dout = (s.dout ++ out).drop s.credit := rfl
@[simp] theorem emit_cmds (out : List Byte) : (s.emit out).cmds = s.cmds := rfl
@[simp] theorem emit_rst (out : List Byte) : (s.emit out).rst = s.rst := rfl
@[simp] theorem emit_credit (out : List Byte) : (s.emit out).credit = s.credit - (s.dout ++ out).length := rfl
@[simp] theorem emit_taken (out : List Byte) : (s.emit out).taken = s.taken ++ (s.dout ++ out).take s.credit := rfl
@[simp] theorem emit_sampled (out : List Byte) : (s.emit out).sampled = s.sampled := rfl
@[simp] theorem emit_script (out : List Byte) : (s.emit out).script = s.script := rfl
@[simp] theorem emit_draws (out : List Byte) : (s.emit out).draws = s.draws := rfl

end Sys2Proof.Machine.State

namespace Sys2Proof.Machine

variable (e : CmdError) (s : State)

/-! ## recordError -/

@[simp] theorem recordError_D : (recordError e s).D = s.D := by unfold recordError; split <;> rfl
@[simp] theorem recordError_I : (recordError e s).I = s.I := by unfold recordError; split <;> rfl
@[simp] theorem recordError_O : (recordError e s).O = s.O := by unfold recordError; split <;> rfl
@[simp] theorem recordError_K : (recordError e s).K = s.K := by unfold recordError; split <;> rfl
@[simp] theorem recordError_KALG : (recordError e s).KALG = s.KALG := by unfold recordError; split <;> rfl
@[simp] theorem recordError_KVALID : (recordError e s).KVALID = s.KVALID := by unfold recordError; split <;> rfl
@[simp] theorem recordError_activity : (recordError e s).activity = s.activity := by unfold recordError; split <;> rfl
@[simp] theorem recordError_din : (recordError e s).din = s.din := by unfold recordError; split <;> rfl
@[simp] theorem recordError_dout : (recordError e s).dout = s.dout := by unfold recordError; split <;> rfl
@[simp] theorem recordError_cmds : (recordError e s).cmds = s.cmds := by unfold recordError; split <;> rfl
@[simp] theorem recordError_rst : (recordError e s).rst = s.rst := by unfold recordError; split <;> rfl
@[simp] theorem recordError_credit : (recordError e s).credit = s.credit := by unfold recordError; split <;> rfl
@[simp] theorem recordError_taken : (recordError e s).taken = s.taken := by unfold recordError; split <;> rfl
@[simp] theorem recordError_sampled : (recordError e s).sampled = s.sampled := by unfold recordError; split <;> rfl
@[simp] theorem recordError_script : (recordError e s).script = s.script := by unfold recordError; split <;> rfl
@[simp] theorem recordError_draws : (recordError e s).draws = s.draws := by unfold recordError; split <;> rfl

theorem recordError_of_clear (h : s.ERR = false) : recordError e s = s.setError true (CmdError.code e) := by
  simp [recordError, h]

theorem recordError_of_set (h : s.ERR = true) : recordError e s = s := by simp [recordError, h]

@[simp] theorem recordError_ERR : (recordError e s).ERR = true := by
  cases h : s.ERR <;> simp [recordError, h]

end Sys2Proof.Machine
end

