-- ==== Sys2Proof/Laws/Ops.lean ====
section
/-! SUPPORT. What the shared operations and each command can do, said once: if it answers a next state, which one. -/

namespace Sys2Proof.Machine

/-! ## Output -/

/-- Emitted bytes follow every earlier byte, accepted or not (`20_memory.md` R52). -/
theorem emit_output (out : List Byte) (s : State) : (s.emit out).output = s.output ++ out := by
  simp [State.output]

theorem drain_output (s : State) : s.drain.output = s.output := by simp [State.output]

theorem emit_wrote (out : List Byte) (s : State) : wroteOutput out s (s.emit out) :=
  ⟨emit_output out s, rfl, rfl, rfl⟩

/-- Where the host stands ready for all of the output, it is all accepted and the command is complete. -/
theorem emit_of_credit {out : List Byte} {s : State} (h0 : s.dout = []) (h : out.length ≤ s.credit) :
    (s.emit out).activity = .idle ∧ (s.emit out).dout = [] ∧ (s.emit out).taken = s.taken ++ out := by
  simp [h0, h, List.take_of_length_le h]

/-! ## Refusing and waiting -/

/-- A refused command whose payload is there. -/
theorem refuseCommand_of_le {e : CmdError} {count : Nat} {s : State} (h : count ≤ s.din.length) :
    refuseCommand e count s = .next (recordError e (s.dropInput count)).complete := by
  rw [refuseCommand, if_neg (by omega)]

/-- A refused command that waits for its payload. -/
theorem refuseCommand_of_lt {e : CmdError} {count : Nat} {s : State} (h : s.din.length < count) :
    refuseCommand e count s = .next (s.setActivity (.discarding e count)) := by
  rw [refuseCommand, if_pos h]

/-- All that refusing a command can do. -/
theorem refuseCommand_cases {e : CmdError} {count : Nat} {s t : State} (h : refuseCommand e count s = .next t) :
    (s.din.length < count ∧ t = s.setActivity (.discarding e count)) ∨
      (count ≤ s.din.length ∧ t = (recordError e (s.dropInput count)).complete) := by
  by_cases hc : s.din.length < count
  · rw [refuseCommand_of_lt hc] at h
    exact .inl ⟨hc, (Host.Outcome.next.inj h).symm⟩
  · rw [refuseCommand_of_le (by omega)] at h
    exact .inr ⟨by omega, (Host.Outcome.next.inj h).symm⟩

theorem withPayload_of_le {i : Instr} {s : State} {f : List Byte → State → State} (h : i.count ≤ s.din.length) :
    withPayload i s f = .next (f (s.din.take i.count) (s.dropInput i.count)) := by
  rw [withPayload, if_neg (by omega)]

theorem withPayload_of_lt {i : Instr} {s : State} {f : List Byte → State → State} (h : s.din.length < i.count) :
    withPayload i s f = .next (s.setActivity (.running i)) := by
  rw [withPayload, if_pos h]

/-! ## The host-visible instance -/

@[simp] theorem forgetStale_H (d : Nat) (x : Instance) : (forgetStale d x).H = x.H := rfl
@[simp] theorem forgetStale_OCC (d : Nat) (x : Instance) : (forgetStale d x).OCC = x.OCC := rfl
@[simp] theorem forgetStale_LEN (d : Nat) (x : Instance) : (forgetStale d x).LEN = x.LEN := rfl
@[simp] theorem forgetStale_PHASE (d : Nat) (x : Instance) : (forgetStale d x).PHASE = x.PHASE := rfl
@[simp] theorem forgetStale_ALG (d : Nat) (x : Instance) : (forgetStale d x).ALG = x.ALG := rfl

/-- Forgetting the stale bytes changes nothing a rule defines (R25). -/
theorem forgetStale_tail (d : Nat) {x : Instance} (h : x.Ready) : (forgetStale d x).tail = x.tail := by
  have hl : (x.BUF.take x.OCC).length = x.OCC := by simpa using h.2
  exact List.take_left' hl

theorem forgetStale_ready (d : Nat) {x : Instance} (h : x.Ready) : (forgetStale d x).Ready := by
  refine ⟨h.1, ?_⟩
  have := h.2
  simp only [forgetStale, List.length_append, List.length_take]
  omega

theorem forgetStale_wf (d : Nat) {x : Instance} (h : x.Ready) : (forgetStale d x).Wf := by
  refine ⟨?_, h.1⟩
  have h2 := h.2
  have h3 := Alg.B_le x.ALG
  have h4 := h.1
  simp only [Memory.wf, forgetStale, List.length_append, List.length_take, freeBytes_length]
  omega

theorem forgetStale_view (d : Nat) {x : Instance} (h : x.Ready) : (forgetStale d x).view = x.view := by
  unfold Instance.view
  rw [forgetStale_tail d h, forgetStale_H]

theorem unspecifiedFields_wf (alg : Alg) (phase : Phase) (d : Nat) : (unspecifiedFields alg phase d).Wf := by
  refine ⟨by simp [Memory.wf, unspecifiedFields, spaceSize], ?_⟩
  simp only [unspecifiedFields, Instance.ALG, freeChain_alg]
  exact Nat.mod_lt _ (Alg.B_pos alg)

@[simp] theorem misused_ALG (d : Nat) (x : Instance) : (misused d x).ALG = x.ALG := freeChain_alg _ _
@[simp] theorem misused_PHASE (d : Nat) (x : Instance) : (misused d x).PHASE = x.PHASE := rfl

theorem misused_wf (d : Nat) (x : Instance) : (misused d x).Wf := unspecifiedFields_wf _ _ _

theorem unspecifiedInstance_wf (d : Nat) : (unspecifiedInstance d).Wf := unspecifiedFields_wf _ _ _

/-- All that UPDATE changes: `D`, and the count of free values drawn. -/
theorem updateD_cases (p : List Byte) (s : State) : ∃ x d, updateD p s = { s with D := x, draws := d } := by
  unfold updateD
  split
  · split
    · exact ⟨s.D, s.draws, rfl⟩
    · exact ⟨_, _, rfl⟩
  · exact ⟨_, _, rfl⟩

theorem freshInstance_wf (alg : Alg) : (freshInstance alg).Wf := by
  refine ⟨by simp [freshInstance, Memory.wf], ?_⟩
  simpa [freshInstance, Instance.ALG] using Alg.B_pos alg

/-- The byte spaces have their form after reset. -/
theorem reset_memories_wf :
    State.reset.D.BUF.wf ∧ State.reset.I.BUF.wf ∧ State.reset.O.BUF.wf ∧ State.reset.K.wf :=
  ⟨(freshInstance_wf _).1, (freshInstance_wf _).1, (freshInstance_wf _).1, zeros_length _⟩

/-! ## Each command -/

theorem exec_init (alg : Alg) (s : State) :
    exec (.init alg) s = .next (replaceD (initInstance s.D alg) s).complete := rfl

theorem exec_reset (s : State) : exec .reset s = .next (replaceD (initInstance s.D s.D.ALG) s).complete := rfl

theorem exec_clrerr (s : State) : exec .clrerr s = .next (s.setError false 0b00#2).complete := rfl

theorem exec_update_of_le {count : Nat} {s : State} (h : count ≤ s.din.length) :
    exec (.update count) s = .next (updateD (s.din.take count) (s.dropInput count)).complete := by
  simp only [exec, execUpdate]
  exact withPayload_of_le (i := .update count) h

theorem exec_result_absorb {s : State} (h : s.D.PHASE = .absorb) :
    exec .result s = .next ((replaceD (finalize s.D).2 s).emit (finalize s.D).1) := by
  simp only [exec, execResult, h]

theorem exec_result_final {s : State} (h : s.D.PHASE = .final) :
    exec .result s =
      .next (((s.setD (misused s.draws s.D)).drawn 1).emit (freeBytes .out s.draws 0 s.D.ALG.N)) := by
  simp only [exec, execResult, h]

theorem exec_digest_of_le {alg : Alg} {count : Nat} {s : State} (h : count ≤ s.din.length) :
    exec (.digest alg count) s = .next ((((s.dropInput count).setI (unspecifiedInstance s.draws)).drawn 1).emit
      (digest alg (s.din.take count))) := by
  rw [← digestOn_eq s.I]
  simp only [exec, execDigest]
  exact withPayload_of_le (i := .digest alg count) h

theorem exec_hkey_of_le {alg : Alg} {count : Nat} {s : State} (h : count ≤ s.din.length) :
    exec (.hkey alg count) s = .next
      ((((s.dropInput count).setKey (keyRegister alg (deriveKey s.I alg (s.din.take count)) s.K) alg).setI
        (unspecifiedInstance s.draws)).drawn 1).complete := by
  simp only [exec, execHkey]
  exact withPayload_of_le (i := .hkey alg count) h

theorem exec_hsign_of_le {count : Nat} {s : State} (hk : s.KVALID = true) (h : count ≤ s.din.length) :
    exec (.hsign count) s = .next
      (((((s.dropInput count).setI (unspecifiedInstance s.draws)).setO (unspecifiedInstance (s.draws + 1))).drawn 2).emit
        (sign s.I s.O s.K s.KALG (s.din.take count))) := by
  simp only [exec, execHsign, if_pos hk]
  exact withPayload_of_le (i := .hsign count) h

theorem exec_hsign_nokey {count : Nat} {s : State} (hk : s.KVALID = false) :
    exec (.hsign count) s = refuseCommand .nokey count s := by
  simp [exec, execHsign, hk]

/-- An HSIGN with no key that waits for the payload it discards. -/
theorem exec_hsign_nokey_of_lt {count : Nat} {s : State} (hk : s.KVALID = false) (h : s.din.length < count) :
    exec (.hsign count) s = .next (s.setActivity (.discarding .nokey count)) := by
  rw [exec_hsign_nokey hk, refuseCommand_of_lt h]

/-- A command that takes a payload waits for it. -/
theorem exec_of_lt {i : Instr} {s : State} (h : s.din.length < i.count) (hk : i.op = .hsign → s.KVALID = true) :
    exec i s = .next (s.setActivity (.running i)) := by
  cases i with
  | init => simp [Instr.count] at h
  | reset => simp [Instr.count] at h
  | update n =>
    simp only [exec, execUpdate]
    exact withPayload_of_lt h
  | result => simp [Instr.count] at h
  | digest a n =>
    simp only [exec, execDigest]
    exact withPayload_of_lt h
  | hkey a n =>
    simp only [exec, execHkey]
    exact withPayload_of_lt h
  | hsign n =>
    simp only [exec, execHsign, if_pos (hk rfl)]
    exact withPayload_of_lt h
  | clrerr => simp [Instr.count] at h

end Sys2Proof.Machine
end

