-- ==== Sys2Proof/Laws/PerInstr.lean ====
section
/-! SUPPORT. Laws of every command as syntax, one lemma for each constructor of `Instr`. -/

namespace Sys2Proof.Laws.EncodingFits

/-- The word of a command meets the mask and match of its operation (`30_encoding.md` R76): a well-formed command is
never encoded as a malformed word. -/
def Statement (i : Instr) : Prop := encode i &&& i.op.mask = i.op.pattern

theorem of_fields (i : Instr) (ha : i.op.algless → i.algCode = 0#2) (hc : i.op.countless → i.count = 0) :
    Statement i := by
  refine (mask_iff _ _).mpr ⟨encode_op i, encode_rsv i, ?_, ?_⟩
  · rw [encode_alg]; exact ha
  · rw [encode_count]; intro h; rw [hc h]

theorem init (alg : Alg) : Statement (.init alg) := of_fields _ (by simp [Instr.op, Op.algless]) fun _ => rfl

theorem reset : Statement .reset := of_fields _ (fun _ => rfl) fun _ => rfl

theorem update (count : Nat) : Statement (.update count) :=
  of_fields _ (fun _ => rfl) (by simp [Instr.op, Op.countless])

theorem result : Statement .result := of_fields _ (fun _ => rfl) fun _ => rfl

theorem digest (alg : Alg) (count : Nat) : Statement (.digest alg count) :=
  of_fields _ (by simp [Instr.op, Op.algless]) (by simp [Instr.op, Op.countless])

theorem hkey (alg : Alg) (count : Nat) : Statement (.hkey alg count) :=
  of_fields _ (by simp [Instr.op, Op.algless]) (by simp [Instr.op, Op.countless])

theorem hsign (count : Nat) : Statement (.hsign count) :=
  of_fields _ (fun _ => rfl) (by simp [Instr.op, Op.countless])

theorem clrerr : Statement .clrerr := of_fields _ (fun _ => rfl) fun _ => rfl

end Sys2Proof.Laws.EncodingFits
end

