-- ==== Sys2Proof/Tests/Slice0.lean ====
section
/-! SUPPORT. Tests of single operations and steps, with expected values from `95_test_vectors.md` and the encoding tables
of `30_encoding.md`, and for every statement with hypotheses a witness that meets them. -/

namespace Sys2Proof.Tests

-- One kernel evaluation at a time: each needs a large stack.
set_option Elab.async false

open Sys2Proof.Machine

/-! ## Helpers -/

/-- The bytes of an ASCII text. -/
def ascii (s : String) : List Byte := s.toList.map fun c => BitVec.ofNat 8 c.toNat

/-- The machine after reset with command words and payload bytes offered, the host ready for 64 bytes of output. -/
def offered (ws : List Word32) (bs : List Byte) : State := { State.reset with cmds := ws, din := bs, credit := 64 }

/-- A part of the next state, where there is one. -/
def after {α : Type} (r : Result) (f : State → α) : Option α :=
  match r with
  | .next t => some (f t)
  | _ => none

/-- `n` times the byte `b`. -/
def rep (n : Nat) (b : Byte) : List Byte := List.replicate n b

/-- An instance that has absorbed `tail` after `len - tail.length` bytes. -/
def midway (H : Chain) (tail : List Byte) (len : Nat) : Instance :=
  { H := H, BUF := tail ++ zeros (128 - tail.length), OCC := tail.length, LEN := BitVec.ofNat 64 len, PHASE := .absorb }

/-! ## Well-formedness: a payload count has 24 bits (R74) -/

theorem test_wf_update : Instr.wf (.update 16777215) = true ∧ Instr.wf (.update 16777216) = false := by decide

theorem test_wf_digest :
    Instr.wf (.digest .sha512 16777215) = true ∧ Instr.wf (.digest .md5 16777216) = false := by decide

theorem test_wf_hkey : Instr.wf (.hkey .sha1 16777215) = true ∧ Instr.wf (.hkey .sha1 16777216) = false := by decide

theorem test_wf_hsign : Instr.wf (.hsign 16777215) = true ∧ Instr.wf (.hsign 16777216) = false := by decide

/-! ## Decoding: words written bit by bit, COUNT RSV ALG OP (R70, R76) -/

theorem test_decode_init :
    decode 0b000000000000000000000000_00_10_0001#32 = .ok (.init .sha256) ∧
      decode 0b000000000000000000000000_00_11_0001#32 = .ok (.init .sha512) := by decide

theorem test_decode_reset : decode 0b000000000000000000000000_00_00_0010#32 = .ok .reset := by decide

theorem test_decode_update :
    decode 0b000000000000000000000011_00_00_0011#32 = .ok (.update 3) ∧
      decode 0b111111111111111111111111_00_00_0011#32 = .ok (.update 16777215) := by decide

theorem test_decode_result : decode 0b000000000000000000000000_00_00_0100#32 = .ok .result := by decide

theorem test_decode_digest :
    decode 0b000000000000000000000011_00_11_0101#32 = .ok (.digest .sha512 3) ∧
      decode 0b100000000000000000000001_00_01_0101#32 = .ok (.digest .sha1 8388609) := by decide

theorem test_decode_hkey :
    decode 0b000000000000000001010000_00_01_0110#32 = .ok (.hkey .sha1 80) ∧
      decode 0b000000000000000000000000_00_00_0110#32 = .ok (.hkey .md5 0) := by decide

theorem test_decode_hsign : decode 0b000000000000000000110110_00_00_0111#32 = .ok (.hsign 54) := by decide

theorem test_decode_clrerr : decode 0b000000000000000000000000_00_00_1111#32 = .ok .clrerr := by decide

/-- V-E1 to V-E5. -/
theorem test_decode_illegal :
    decode 0x00000000#32 = .error .illop ∧ decode 0x00000200#32 = .error .illop ∧ decode 0x00000008#32 = .error .illop ∧
      decode 0x0000000E#32 = .error .illop ∧ decode 0xFFFFFFF9#32 = .error .illop ∧
      decode 0x00000040#32 = .error .illop := by decide

/-- V-E6 to V-E12, V-E14, V-E15. -/
theorem test_decode_field :
    decode 0x00000041#32 = .error .field ∧ decode 0x00000131#32 = .error .field ∧ decode 0x00000012#32 = .error .field ∧
      decode 0x00000113#32 = .error .field ∧ decode 0x00000104#32 = .error .field ∧ decode 0x000000C5#32 = .error .field ∧
      decode 0x00000086#32 = .error .field ∧ decode 0x00000317#32 = .error .field ∧
      decode 0x0000001F#32 = .error .field := by decide

theorem test_decode_table_word :
    decodeTableWord 32 0x00000335 = some (.digest .sha512 3) ∧ decodeTableWord 8 0xFF03 = some (.update 0) ∧
      decodeTableWord 32 0 = none ∧ decodeTableWord 40 2 = none := by decide

/-- The word placed for the fetch is the one the next step runs, from any activity and any script. -/
theorem test_fetch_word :
    after (step (State.withFetchWord { State.reset with activity := .draining, script := [.readStatus] } 32 0x21))
      (fun t => (t.status, t.cmds)) = some (0x00000100#32, []) := by decide +kernel

/-! ## Bytes, padding, digests -/

/-- V-L2, V-L4, V-L5, V-L6. -/
theorem test_length_field :
    lenField .md5 3#64 = toBE 0x1800000000000000#64 8 ∧ lenField .sha1 3#64 = toBE 0x0000000000000018#64 8 ∧
      lenField .sha512 0x2000000000000000#64 = toBE 0x00000000000000010000000000000000#128 16 ∧
      lenField .md5 0x2000000000000005#64 = toBE 0x2800000000000000#64 8 ∧
      lenField .sha256 0xFFFFFFFFFFFFFFFF#64 = toBE 0xFFFFFFFFFFFFFFF8#64 8 ∧
      lenField .sha512 0xFFFFFFFFFFFFFFFF#64 = toBE 0x0000000000000007FFFFFFFFFFFFFFF8#128 16 := by decide +kernel

/-- The byte orders of R9: `h'01020304'`. -/
theorem test_byte_orders :
    le32 [1#8, 2#8, 3#8, 4#8] 0 = 0x04030201#32 ∧ be32 [1#8, 2#8, 3#8, 4#8] 0 = 0x01020304#32 ∧
      be64 [0#8, 1#8, 2#8, 3#8, 4#8, 5#8, 6#8, 7#8, 8#8] 1 = 0x0102030405060708#64 ∧
      toLE 0x01020304#32 4 = [4#8, 3#8, 2#8, 1#8] ∧ toBE 0x01020304#32 4 = [1#8, 2#8, 3#8, 4#8] := by decide +kernel

/-- V-Z1: MD5 of a zero block from the initial value. -/
theorem test_compress_md5_zero :
    compress (iv .md5) (zeros 64) = .md5 ⟨0x031F1DAC#32, 0x6EA58ED0#32, 0x1FAB67B7#32, 0x74317791#32⟩ := by
  decide +kernel

/-- V-S3. -/
theorem test_digest_md5 : digest .md5 (ascii "abc") = toBE 0x900150983cd24fb0d6963f7d28e17f72#128 16 := by decide +kernel

/-- V-S5. -/
theorem test_digest_sha256 : digest .sha256 (ascii "abc") =
    toBE 0xba7816bf8f01cfea414140de5dae2223b00361a396177a9cb410ff61f20015ad#256 32 := by decide +kernel

/-! ## The commands, one step each -/

/-- V-CMD1. -/
theorem test_init_sha256 :
    after (step (offered [0x00000021#32] [])) (fun t => (t.status, t.D.H, t.D.OCC, t.D.LEN, t.D.PHASE)) =
      some (0x00000100#32, .sha256 ⟨0x6A09E667#32, 0xBB67AE85#32, 0x3C6EF372#32, 0xA54FF53A#32, 0x510E527F#32,
        0x9B05688C#32, 0x1F83D9AB#32, 0x5BE0CD19#32⟩, 0, 0#64, .absorb) := by decide +kernel

/-- V-CMD2. -/
theorem test_init_sha512 :
    after (step (offered [0x00000031#32] [])) (fun t => (t.status, (serialize t.D.H).take 8)) =
      some (0x00000180#32, toBE 0x6A09E667F3BCC908#64 8) := by decide +kernel

/-- V-CMD4a: RESET after a RESULT. -/
theorem test_reset_after_result :
    after (step { offered [0x00000002#32] [] with D := { midway (iv .sha256) [] 3 with PHASE := .final } })
      (fun t => (t.status, t.D.H, t.D.OCC, t.D.LEN, t.D.PHASE)) =
        some (0x00000100#32, iv .sha256, 0, 0#64, .absorb) := by decide +kernel

/-- V-CMD3, with one more byte offered, which stays. -/
theorem test_update_abc :
    after (step { offered [0x00000303#32] (ascii "abcd") with D := freshInstance .sha256 })
      (fun t => (t.status, t.D.OCC, t.D.LEN, t.D.BUF.take 3, t.din)) =
        some (0x00000100#32, 3, 3#64, ascii "abc", ascii "d") := by decide +kernel

/-- V-ST2: 60 bytes are buffered, 10 more arrive. -/
theorem test_update_across_block :
    after (step { offered [0x00000A03#32] ((List.range 10).map fun j => BitVec.ofNat 8 (0x3C + j)) with
        D := midway (iv .sha256) ((List.range 60).map fun j => BitVec.ofNat 8 j) 60 })
      (fun t => (t.D.OCC, t.D.LEN, t.D.H)) =
        some (6, 70#64, .sha256 ⟨0xFC99A2DF#32, 0x88F42A7A#32, 0x7BB9D180#32, 0x33CDC6A2#32, 0x0256755F#32,
          0x9D5B9A50#32, 0x44A9CC31#32, 0x5ABE84A7#32⟩) := by decide +kernel

/-- V-CMD4b. -/
theorem test_result_at_reset :
    after (step (offered [0x00000004#32] [])) (fun t => (t.status, t.taken, t.D.PHASE)) =
      some (0x00000200#32, toBE 0xd41d8cd98f00b204e9800998ecf8427e#128 16, .final) := by decide +kernel

/-- V-B2: the padding spans one extra block. -/
theorem test_result_two_blocks :
    after (step { offered [0x00000004#32] [] with D := midway (iv .md5) (rep 56 0x61#8) 56 }) (fun t => (t.taken, t.D.OCC, t.D.LEN)) =
      some (toBE 0x3b0c8ac703f828b04c6c197006d17218#128 16, 0, 56#64) := by decide +kernel

/-- V-U1: the second RESULT gives 20 bytes and no error. -/
theorem test_result_misuse :
    after (step { offered [0x00000004#32] [] with D := { freshInstance .sha1 with PHASE := .final } })
      (fun t => (t.taken.length, t.status)) = some (20, 0x00000280#32) := by decide +kernel

/-- V-CMD5. -/
theorem test_digest_command_sha512 :
    after (step (offered [0x00000335#32] (ascii "abc"))) (fun t => (t.status, t.taken, t.D)) =
      some (0x00000000#32, toBE 0xddaf35a193617abacc417349ae20413112e6fa4e89a97ea20a9eeee64b55d39a2192992a274fc1a836ba3c23a3feebbd454d4423643ce80e2a9ac94fa54ca49f#512 64, State.reset.D) := by
  decide +kernel

/-- V-S4. -/
theorem test_digest_command_sha1 :
    after (step (offered [0x00000315#32] (ascii "abc"))) (fun t => t.taken) =
      some (toBE 0xa9993e364706816aba3e25717850c26c9cd0d89d#160 20) := by decide +kernel

/-- V-CMD7. -/
theorem test_hkey_short :
    after (step (offered [0x00000416#32] (ascii "Jefe"))) (fun t => (t.status, t.K)) =
      some (0x00000030#32, [0x7c#8, 0x53#8, 0x50#8, 0x53#8] ++ rep 60 0x36#8 ++ rep 64 0x00#8) := by decide +kernel

/-- The key of V-HM1: a secret longer than a block is hashed first. -/
theorem test_hkey_long :
    after (step (offered [0x00005016#32] (rep 80 0xaa#8))) (fun t => t.K) =
      some (toBE 0x7a96d90ec74f7d1e9eced82738d1ab7ef8258813#160 20 ++ rep 44 0x36#8 ++ rep 64 0x00#8) := by decide +kernel

/-- V-CMD9. -/
theorem test_hsign :
    after (step { offered [0x00001C07#32] (ascii "what do ya want for nothing?") with
        K := [0x7c#8, 0x53#8, 0x50#8, 0x53#8] ++ rep 60 0x36#8 ++ rep 64 0x00#8, KALG := .sha1, KVALID := true })
      (fun t => (t.status, t.taken)) =
        some (0x00000030#32, toBE 0xeffcdf6ae5eb2fa2d27416d5f184df9c259a7c79#160 20) := by decide +kernel

/-- V-E13. -/
theorem test_hsign_nokey :
    after (step (offered [0x00000007#32] [])) (fun t => (t.status, t.taken)) = some (0x0000000E#32, []) := by
  decide +kernel

/-- V-CMD11. -/
theorem test_clrerr :
    after (step { offered [0x0000000F#32] [] with ERR := true, ERRCODE := 0b01#2 }) (fun t => t.status) =
      some 0x00000000#32 := by decide +kernel

/-- V-E15: a malformed CLRERR does not clear. -/
theorem test_clrerr_malformed :
    after (step { offered [0x0000001F#32] [] with ERR := true, ERRCODE := 0b01#2 }) (fun t => t.status) =
      some 0x00000006#32 := by decide +kernel

/-- V-E2: a refused command discards its payload. -/
theorem test_refused_payload :
    after (step (offered [0x00000200#32] [1#8, 2#8, 3#8])) (fun t => (t.status, t.din)) =
      some (0x00000006#32, [3#8]) := by decide +kernel

/-- V-E16: V-E1 and then V-E13, the first error is kept. -/
theorem test_error_sticky :
    after (runSteps 2 (offered [0x00000000#32, 0x00000007#32] [])) (fun t => t.status) = some 0x00000006#32 := by
  decide +kernel

/-! ## The interface -/

/-- A command that lacks payload waits with `BUSY = 1` (R255). -/
theorem test_waits_for_payload :
    after (step (offered [0x00000303#32, 0x00000004#32] (ascii "ab"))) (fun t => (t.activity, t.status, t.din, t.cmds)) =
      some (.running (.update 3), 0x00000001#32, ascii "ab", [0x00000004#32]) := by decide +kernel

/-- A command whose output is not all accepted is busy (R256). -/
theorem test_waits_for_acceptance :
    after (step { offered [0x00000004#32] [] with credit := 15 }) (fun t => (t.activity, t.dout, t.taken.length)) =
      some (.draining, [0x7e#8], 15) := by decide +kernel

/-- Reset in the middle of a command (R251). -/
theorem test_reset_mid_command :
    after (step { offered [0x00000004#32] (ascii "ab") with
        activity := .running (.update 3), KVALID := true, ERR := true, script := [.setReset true] })
      (fun t => (t.status, t.rst, t.din, t.cmds)) = some (0x00000000#32, true, [], [0x00000004#32]) := by decide +kernel

/-- STATUS read while idle. -/
theorem test_status_read :
    after (step { State.reset with ERR := true, ERRCODE := 0b10#2, script := [.readStatus] }) (fun t => t.sampled) =
      some 0x0000000A#32 := by decide +kernel

/-! ## The assembly language (R81 to R84) -/

theorem test_assemble_commands :
    assembleText "init SHA256".toList = some [(0x00000021#32, [])] ∧
      assembleText "UPDATE \"abc\"".toList = some [(0x00000303#32, ascii "abc")] ∧
      assembleText "HKEY SHA1, 80*h'AA'".toList = some [(0x00005016#32, rep 80 0xaa#8)] ∧
      assembleText ".word 0x00000200, h'0102'".toList = some [(0x00000200#32, [1#8, 2#8])] := by decide +kernel

theorem test_assemble_pseudo :
    assembleText "HMAC SHA1, \"Jefe\", \"x\" + 2*h'0B'".toList =
        some [(0x00000416#32, ascii "Jefe"), (0x00000307#32, [0x78#8, 0x0b#8, 0x0b#8])] ∧
      assembleText "HASH MD5, \"\"".toList =
        some [(0x00000001#32, []), (0x00000003#32, []), (0x00000004#32, [])] := by decide +kernel

theorem test_assemble_errors :
    assembleText "UPDATE".toList = none ∧ assembleText "INIT SHA3".toList = none ∧
      assembleText "RESET \"a\"".toList = none ∧ assembleText "HKEY SHA1 \"a\"".toList = none := by decide +kernel

/-! ## Witnesses: for every statement with hypotheses, a state and operands that meet them -/

/-- An idle machine with a key, an error on record, 100 payload bytes and the host ready for 64 bytes of output. -/
def keyed (ws : List Word32) : State :=
  { offered ws (rep 100 0x61#8) with
    K := rep 64 0x36#8 ++ zeros 64, KALG := .sha256, KVALID := true, ERR := true, ERRCODE := 0b01#2 }

theorem test_witness_DecodeOfEncode : Instr.wf (.hkey .sha512 16777215) = true ∧ Instr.wf (.hsign 0) = true := by decide

theorem test_witness_EncodeOfDecode :
    decode 0xFFFFFF35#32 = .ok (.digest .sha512 16777215) ∧ decode 0x00000001#32 = .ok (.init .md5) := by decide

theorem test_witness_IllegalOperationRaisedExactly :
    (0x00000040#32).extractLsb' 0 4 ∈ illegalOps ∧ (0xFFFFFFFE#32).extractLsb' 0 4 ∈ illegalOps := by decide

theorem test_witness_FieldErrorRaisedExactly : breaksForm 0x00000131#32 ∧ breaksForm 0x0000001F#32 := by
  unfold breaksForm; decide

theorem test_witness_NoKeyRaisedExactly :
    State.reset.KVALID = false ∧ (∃ t, exec (.init .sha1) State.reset = .next t) ∧
      ∃ t, refuseCommand .nokey 0 State.reset = .next t := ⟨rfl, ⟨_, rfl⟩, _, rfl⟩

/-- One word for each clause, no word under two. -/
theorem test_witness_ErrorPriority :
    (0x00000040#32).extractLsb' 0 4 ∈ illegalOps ∧
      ((0x00000317#32).extractLsb' 0 4 ∉ illegalOps ∧ breaksForm 0x00000317#32) ∧
      ((0x00000007#32).extractLsb' 0 4 ∉ illegalOps ∧ ¬ breaksForm 0x00000007#32 ∧ State.reset.KVALID = false) ∧
      ((0x00000021#32).extractLsb' 0 4 ∉ illegalOps ∧ ¬ breaksForm 0x00000021#32) ∧ (keyed []).KVALID = true ∧
      State.reset.KVALID = (offered [] (ascii "a")).KVALID ∧ checkCommand 0x00000007#32 State.reset = some .nokey ∧
      checkCommand 0x00000007#32 (keyed []) = none := by
  unfold breaksForm; decide +kernel

theorem test_witness_RefusedCommandEffect :
    100 ≤ (keyed []).din.length ∧ (keyed []).rst = false ∧ (keyed [0x1#32]).cmds = 0x1#32 :: [] ∧
      (keyed []).ERR = true ∧ State.reset.ERR = false := by decide +kernel

theorem test_witness_ErrorRecordKeepsFirst :
    State.reset.ERR = false ∧ (keyed []).ERR = true ∧ (∃ t, exec (.init .md5) (keyed []) = .next t) ∧
      ∃ t, step (keyed [0x1#32]) = .next t := ⟨rfl, rfl, ⟨_, rfl⟩, _, rfl⟩

theorem test_witness_StepRunsDecodedCommand :
    (keyed [0x1#32]).script = [] ∧ (keyed [0x1#32]).rst = false ∧ (keyed [0x1#32]).activity = .idle ∧
      (keyed [0x1#32]).cmds = 0x1#32 :: [] ∧ decode 0x1#32 = .ok (.init .md5) ∧ decode 0x0#32 = .error .illop := by
  decide +kernel

theorem test_witness_CommandsWaitWhileBusy :
    (∃ t, step { keyed [0x1#32] with activity := .draining } = .next t) ∧
      ({ keyed [0x1#32] with activity := .draining } : State).busy = true ∧ (keyed [0x1#32]).busy = false ∧
      (∃ t, coreStep (keyed [0x1#32]) = .next t) := ⟨⟨_, rfl⟩, rfl, rfl, _, rfl⟩

theorem test_witness_IdleBlockHoldsState :
    (keyed []).activity = .idle ∧ (keyed []).cmds = [] ∧ (keyed []).rst = false ∧ (keyed []).script = [] ∧
      ∀ b, HostMove.acceptBytes 1 ≠ .setReset b := by decide +kernel

/-- A machine with a command word offered meets the invariant, and its step starts a message. -/
theorem test_witness_StepKeepsInvariant :
    (offered [0x21#32] []).Inv ∧ ∃ t, step (offered [0x21#32] []) = .next t ∧ t.D.ALG = .sha256 :=
  ⟨{ D := freshInstance_wf _, I := freshInstance_wf _, O := freshInstance_wf _
     key := ⟨zeros_length _, fun a _ => byteAt_zeros _ a, fun _ => ⟨rfl, rfl⟩⟩
     error := by simp [State.ErrorWf, offered, State.reset]
     activity := rfl
     held := fun h => by simp [offered, State.reset] at h }, _, rfl, rfl⟩

theorem test_witness_CommandCompletesOnceFed :
    let s := keyed [0x00006407#32]
    s.script = [] ∧ s.rst = false ∧ s.activity = .idle ∧ s.dout = [] ∧ s.cmds = 0x00006407#32 :: [] ∧
      ((0x00006407#32).extractLsb' 8 24).toNat ≤ s.din.length ∧ 64 ≤ s.credit := by decide +kernel

/-- One byte short, and exactly all. -/
theorem test_witness_ShortPayloadIsStuck :
    (keyed []).rst = false ∧ (keyed []).din.length < ((0x00006503#32).extractLsb' 8 24).toNat ∧
      ((0x00006503#32).extractLsb' 8 24).toNat ≤ (rep 101 0x61#8).length := by decide +kernel

theorem test_witness_UndrainedOutputIsStuck :
    (let s : State := { keyed [] with activity := .draining, dout := [1#8, 2#8], credit := 1 }
     s.rst = false ∧ s.activity = .draining ∧ s.credit < s.dout.length) ∧
      (let s : State := { keyed [] with activity := .draining, dout := [1#8, 2#8], credit := 2 }
       s.rst = false ∧ s.activity = .draining ∧ s.dout.length ≤ s.credit) ∧
      (keyed []).KVALID = true ∧ (keyed []).dout = [] ∧ 100 ≤ (keyed []).din.length := by decide +kernel

theorem test_witness_UndrainedOutputIsStuck_runs :
    (∃ t, exec .result (keyed []) = .next t) ∧ (∃ t, exec (.digest .md5 100) (keyed []) = .next t) ∧
      ∃ t, exec (.hsign 100) (keyed []) = .next t :=
  ⟨⟨_, rfl⟩, ⟨_, exec_digest_of_le (by decide +kernel)⟩, _, exec_hsign_of_le rfl (by decide +kernel)⟩

theorem test_witness_BlockResetAbandonsCommand :
    ({ keyed [] with activity := .draining, script := [.setReset true] } : State).script = .setReset true :: [] ∧
      ({ keyed [] with rst := true, script := [.setReset false] } : State).rst = true ∧
      ({ keyed [] with rst := true } : State).script = [] ∧
      ({ keyed [] with rst := true, script := [.letCore] } : State).script.head? = some .letCore := by decide +kernel

theorem test_witness_StatusWordFields :
    (∀ b, HostMove.readStatus ≠ .setReset b) ∧ (keyed []).busy = false ∧ (keyed []).rst = false ∧ (keyed []).cmds = [] ∧
      ∃ t, coreStep (keyed []) = .next t := ⟨by decide, rfl, rfl, rfl, _, rfl⟩

/-- While idle, and while busy. -/
theorem test_witness_StatusReadHasNoSideEffect :
    ({ keyed [] with script := [.readStatus] } : State).script = .readStatus :: [] ∧
      ({ keyed [] with script := [.readStatus] } : State).busy = false ∧
      ({ keyed [] with script := [.readStatus], activity := .running .clrerr } : State).busy = true := by decide +kernel

/-- A write up to the last byte of a byte space, with a byte on each side of another. -/
theorem test_witness_ByteSpaceReadAfterWrite :
    120 + (rep 8 0x61#8).length ≤ (zeros 128).length ∧ (119 < 120 ∨ 120 + (rep 8 0x61#8).length ≤ 119) ∧
      (127 < 64 ∨ 64 + (rep 63 0x61#8).length ≤ 127) := by decide +kernel

/-- The first and the last byte of each field, for a length whose bits reach both. -/
theorem test_witness_LengthFieldBytes :
    byteAt (lenField .md5 0x1000000000000001#64) 0 = 0x08#8 ∧ byteAt (lenField .md5 0x1000000000000001#64) 7 = 0x80#8 ∧
      byteAt (lenField .sha1 0x1000000000000001#64) 0 = 0x80#8 ∧ byteAt (lenField .sha256 0x1000000000000001#64) 7 = 0x08#8 ∧
      byteAt (lenField .sha512 0xF000000000000001#64) 7 = 0x07#8 ∧
      byteAt (lenField .sha512 0xF000000000000001#64) 15 = 0x08#8 := by decide +kernel

/-- The first and the last byte of each serialization. -/
theorem test_witness_SerializedBytes :
    byteAt (serialize (iv .md5)) 0 = 0x01#8 ∧ byteAt (serialize (iv .md5)) 15 = 0x10#8 ∧
      byteAt (serialize (iv .sha1)) 0 = 0x67#8 ∧ byteAt (serialize (iv .sha1)) 19 = 0xF0#8 ∧
      byteAt (serialize (iv .sha256)) 0 = 0x6A#8 ∧ byteAt (serialize (iv .sha256)) 31 = 0x19#8 ∧
      byteAt (serialize (iv .sha512)) 0 = 0x6A#8 ∧ byteAt (serialize (iv .sha512)) 63 = 0x79#8 := by decide +kernel

/-- The words at the bounds of the block 00 01 .. 3F, and the words of the first and the last step of each round, from the
list of R107. -/
theorem test_witness_Md5MessageWords :
    let M := wordsLE32 ((List.range 64).map fun j => BitVec.ofNat 8 j)
    0 < 16 ∧ M.getD 0 0#32 = 0x03020100#32 ∧ 15 < 16 ∧ M.getD 15 0#32 = 0x3F3E3D3C#32 ∧ 63 < 64 ∧
      [0, 15, 16, 31, 32, 47, 48, 63].map (fun i => md5WordOrder.getD i 0) = [0, 15, 1, 12, 5, 2, 0, 9] ∧
      [0, 15, 16, 31, 32, 47, 48, 63].map md5WordIndex = [0, 15, 1, 12, 5, 2, 0, 9] ∧ md5WordOrder.length = 64 := by
  decide +kernel

/-- The words at the bounds of each range of the SHA-1 schedule, of the block 00 01 .. 3F. -/
theorem test_witness_Sha1ScheduleRecurrence :
    let W := sha1Schedule ((List.range 64).map fun j => BitVec.ofNat 8 j)
    0 < 16 ∧ W.getD 0 0#32 = 0x00010203#32 ∧ 15 < 16 ∧ W.getD 15 0#32 = 0x3C3D3E3F#32 ∧ 16 ≤ 16 ∧ 79 < 80 ∧
      W.length = 80 := by decide +kernel

theorem test_witness_Sha256ScheduleRecurrence :
    let W := sha256Schedule ((List.range 64).map fun j => BitVec.ofNat 8 j)
    0 < 16 ∧ W.getD 0 0#32 = 0x00010203#32 ∧ 15 < 16 ∧ W.getD 15 0#32 = 0x3C3D3E3F#32 ∧ 16 ≤ 16 ∧ 63 < 64 ∧
      W.length = 64 := by decide +kernel

theorem test_witness_Sha512ScheduleRecurrence :
    let W := sha512Schedule ((List.range 128).map fun j => BitVec.ofNat 8 j)
    0 < 16 ∧ W.getD 0 0#64 = 0x0001020304050607#64 ∧ 15 < 16 ∧ W.getD 15 0#64 = 0x78797A7B7C7D7E7F#64 ∧ 16 ≤ 16 ∧
      79 < 80 ∧ W.length = 80 := by decide +kernel

/-- An instance one byte short of its block. -/
theorem test_witness_AbsorbIsBytewise : (midway (iv .sha256) (rep 63 0x61#8) 63).Wf := by decide +kernel

/-- An instance with an empty buffer, and one with a full block but for one byte. -/
theorem test_witness_AbsorbHashesWholeBlocks :
    (freshInstance .sha512).Wf ∧ (midway (iv .sha512) (rep 127 0x61#8) 127).Wf := by decide +kernel

/-- Two instances that differ in stale bytes alone. -/
theorem test_witness_NoStaleByteIsRead :
    let x := midway (iv .sha1) (rep 5 0x61#8) 5
    let y := { x with BUF := rep 128 0x61#8 }
    x.Wf ∧ y.Wf ∧ x.H = y.H ∧ x.OCC = y.OCC ∧ x.LEN = y.LEN ∧ x.PHASE = y.PHASE ∧
      x.BUF.take x.OCC = y.BUF.take y.OCC ∧ x ≠ y := by decide +kernel

/-- Both sides of the boundary, for a 64-byte and a 128-byte block. -/
theorem test_witness_FinalizeOneOrTwoBlocks :
    (midway (iv .md5) (rep 55 0x61#8) 55).Wf ∧ 55 ≤ 64 - 8 - 1 ∧ (midway (iv .md5) (rep 56 0x61#8) 56).Wf ∧
      64 - 8 ≤ 56 ∧ (midway (iv .sha512) (rep 111 0x61#8) 111).Wf ∧ 111 ≤ 128 - 16 - 1 ∧
      (midway (iv .sha512) (rep 112 0x61#8) 112).Wf ∧ 128 - 16 ≤ 112 := by decide +kernel

/-- Words of INIT: well-formed, with a count, with reserved bits. -/
theorem test_witness_InitStartsMessage :
    (0x00000031#32).extractLsb' 0 4 = 0x1#4 ∧ (0x00000131#32).extractLsb' 0 4 = 0x1#4 ∧
      (0x00000041#32).extractLsb' 0 4 = 0x1#4 := by decide

theorem test_witness_ResetRestartsMessage :
    (0x00000002#32).extractLsb' 0 4 = 0x2#4 ∧ (0x00000012#32).extractLsb' 0 4 = 0x2#4 := by decide

/-- UPDATE of all bytes, of none, and in FINAL. -/
theorem test_witness_UpdateAbsorbsPayload :
    100 ≤ (keyed []).din.length ∧ (keyed []).D.PHASE = .absorb ∧ (keyed []).D.Wf ∧ 0 ≤ (keyed []).din.length ∧
      ({ keyed [] with D := { freshInstance .sha1 with PHASE := .final } } : State).D.PHASE = .final ∧
      (0x00006403#32).extractLsb' 0 4 = 0x3#4 ∧ (0x00000113#32).extractLsb' 0 4 = 0x3#4 := by decide +kernel

theorem test_witness_ResultOutputsDigest :
    State.reset.D.PHASE = .absorb ∧ State.reset.D.Wf ∧ (0x00000004#32).extractLsb' 0 4 = 0x4#4 ∧
      (0x00000104#32).extractLsb' 0 4 = 0x4#4 := by decide +kernel

theorem test_witness_MisuseIsNoError :
    let s : State := { keyed [] with D := { freshInstance .sha1 with PHASE := .final } }
    (Instr.result.op = .result ∨ Instr.result.op = .update) ∧ ((Instr.update 100).op = .result ∨ (Instr.update 100).op = .update) ∧
      s.D.PHASE = .final ∧ Instr.result.count ≤ s.din.length ∧ (Instr.update 100).count ≤ s.din.length := by decide +kernel

theorem test_witness_MisuseIsNoError_clrerr :
    ∃ t, exec .clrerr { keyed [] with D := { freshInstance .sha1 with PHASE := .final } } = .next t := ⟨_, rfl⟩

theorem test_witness_DigestCommandOutputsDigest :
    100 ≤ (keyed []).din.length ∧ (0x00006435#32).extractLsb' 0 4 = 0x5#4 ∧ (0x000000C5#32).extractLsb' 0 4 = 0x5#4 := by
  decide +kernel

theorem test_witness_OneShotEqualsStreaming : 0 ≤ State.reset.din.length ∧ 100 ≤ (keyed []).din.length := by
  decide +kernel

theorem test_witness_ResetIndependence : 100 ≤ (keyed []).din.length ∧ (keyed []).D.ALG = .md5 := by decide +kernel

/-- A secret of exactly a block, and one byte longer. -/
theorem test_witness_HkeyStoresPaddedKey :
    64 ≤ (keyed []).din.length ∧ 64 ≤ Alg.sha1.B ∧ 65 ≤ (keyed []).din.length ∧ ¬ 65 ≤ Alg.sha1.B ∧ (keyed []).K.wf ∧
      (0x00006416#32).extractLsb' 0 4 = 0x6#4 ∧ (0x00000086#32).extractLsb' 0 4 = 0x6#4 := by decide +kernel

theorem test_witness_HsignOutputsMac :
    100 ≤ (keyed []).din.length ∧ (keyed []).KVALID = true ∧ (0x00006407#32).extractLsb' 0 4 = 0x7#4 ∧
      (0x00000317#32).extractLsb' 0 4 = 0x7#4 := by decide +kernel

theorem test_witness_KeyThenSignIsHmac :
    (keyed []).K.wf ∧ (keyed []).din = rep 65 0x61#8 ++ rep 34 0x61#8 ++ rep 1 0x61#8 := by decide +kernel

/-- Two states with the same key, one of them with more payload behind the message. -/
theorem test_witness_SigningKeepsKey :
    let s := keyed []
    let s' : State := { keyed [] with din := rep 80 0x61#8, D := freshInstance .sha1 }
    s'.K = s.K ∧ s'.KALG = s.KALG ∧ s.KVALID = true ∧ s'.KVALID = true ∧ 80 ≤ s.din.length ∧ 80 ≤ s'.din.length ∧
      s.din.take 80 = s'.din.take 80 := by decide +kernel

/-- Two keys; no key, a message one byte short, and one that is just there. -/
theorem test_witness_KeyLeavesOnlyAsMac :
    sameButKey (keyed []) { keyed [] with K := rep 64 0x5C#8 ++ zeros 64 } ∧ (Instr.result).op ≠ .hsign ∧
      sameButKey State.reset { State.reset with K := rep 128 0x5C#8 } ∧ State.reset.KVALID = false ∧
      (keyed []).din.length < 101 ∧ (keyed []).KVALID = true ∧ 100 ≤ (keyed []).din.length := by
  unfold sameButKey; decide +kernel

theorem test_witness_ClrerrClearsRecord :
    State.reset.ERR = false ∧ State.reset.ErrorWf ∧ State.reset.activity = .idle ∧
      (0x0000000F#32).extractLsb' 0 4 = 0xF#4 ∧ (0x0000001F#32).extractLsb' 0 4 = 0xF#4 ∧ 0x0000001F#32 ≠ 0x0000000F#32 ∧
      (keyed []).ERR = true := by
  unfold State.ErrorWf; decide +kernel

theorem test_witness_ClrerrClearsRecord_runs : ∃ t, executeCommand 0x0000001F#32 (keyed []) = .next t := ⟨_, rfl⟩

theorem test_witness_CommandFrames :
    (∃ t, exec (.update 100) (keyed []) = .next t) ∧ (keyed []).KVALID = true ∧ (∃ t, exec .clrerr (keyed []) = .next t) :=
  ⟨⟨_, exec_update_of_le (by decide +kernel)⟩, rfl, _, rfl⟩

theorem test_witness_AssembledLinesAreFramed :
    assemble (.hash .md5 [0x61#8]) = some [(0x00000001#32, []), (0x00000103#32, [0x61#8]), (0x00000004#32, [])] ∧
      ∀ w bs, AsmLine.hash .md5 [0x61#8] ≠ .word w bs := ⟨by decide +kernel, by simp⟩

/-- The longest payload of one command, and one byte more (R81). -/
theorem test_witness_AssembledLinesAreFramed_bounds :
    (rep 16777215 0x61#8).length ≤ 16777215 ∧ 16777215 < (rep 16777216 0x61#8).length := by
  simp only [rep, List.length_replicate]; omega

/-- R81: too long a payload is an error also behind `.word`. -/
theorem test_word_too_long (w : Word32) : assemble (.word w (rep 16777216 0x61#8)) = none :=
  assembleWord_of_lt (by simp only [rep, List.length_replicate, maxPayload]; omega)

theorem test_witness_HashPseudoCommandOutputsDigest :
    assemble (.hash .sha1 []) = some [(0x00000011#32, []), (0x00000003#32, []), (0x00000004#32, [])] ∧
      (keyed []).script = [] ∧ (keyed []).rst = false ∧ (keyed []).activity = .idle ∧ (keyed []).dout = [] ∧
      64 ≤ (keyed []).credit := by decide +kernel

theorem test_witness_HmacPseudoCommandOutputsMac :
    assemble (.hmac .sha1 [0x61#8] [0x62#8]) = some [(0x00000116#32, [0x61#8]), (0x00000107#32, [0x62#8])] ∧
      (keyed []).K.wf ∧ (keyed []).script = [] ∧ (keyed []).rst = false ∧ (keyed []).activity = .idle ∧
      (keyed []).dout = [] ∧ 64 ≤ (keyed []).credit := by decide +kernel

end Sys2Proof.Tests
end

section
/-! PROOFS. The state after reset (`10_state.md` R39), and that its host-visible instance is one that INIT has just
started. -/

namespace Sys2Proof.Machine

/-- Starting a message leaves of the old instance only stale bytes (R150, `10_state.md` R25), as the occupancy is 0. -/
theorem forgetStale_initInstance_sameMessage (draw : Nat) (x : Instance) (alg : Alg) :
    sameMessage (forgetStale draw (initInstance x alg)) (freshInstance alg) :=
  ⟨rfl, rfl, rfl, rfl, List.take_zero.trans List.take_zero.symm⟩

/-- INIT answers, from any state, with an instance just created for its algorithm. -/
theorem exec_init_sameMessage_freshInstance (alg : Alg) (s : State) :
    ∃ t, exec (.init alg) s = .next t ∧ sameMessage t.D (freshInstance alg) :=
  ⟨_, exec_init alg s, forgetStale_initInstance_sameMessage s.draws s.D alg⟩

/-- After reset every field of the `STATUS` word reads 0 (R32, R39). -/
theorem reset_status : State.reset.status = 0#32 := by decide

/-- Settles O19: the stored values are those of `State.reset`; the last clause is what INIT does from any state. -/
theorem resetValues : Obligations.ResetValues := by
  unfold Obligations.ResetValues
  exact ⟨rfl, rfl, rfl, rfl, rfl, rfl, rfl, rfl, rfl, rfl, rfl, reset_status, rfl, rfl,
    exec_init_sameMessage_freshInstance .md5 State.reset⟩

end Sys2Proof.Machine
end

section
/-! PROOFS. The SHA-1 message words and schedule (`40_compression.md` R110, R111). -/

namespace Sys2Proof.Machine

/-- The message words of a big-endian block, read by index (R110, R116). -/
theorem wordsBE32_getD (blk : List Byte) {t : Nat} (ht : t < 16) : (wordsBE32 blk).getD t 0#32 = be32 blk (4 * t) := by
  simp [wordsBE32, ht]

/-- The word that follows the first `t` words of a schedule, in terms of the whole schedule (R111). -/
theorem sha1Next_take (W : List Word32) {t : Nat} (h16 : 16 ≤ t) (ht : t ≤ W.length) :
    sha1Next (W.take t) =
      rotl (W.getD (t - 3) 0#32 ^^^ W.getD (t - 8) 0#32 ^^^ W.getD (t - 14) 0#32 ^^^ W.getD (t - 16) 0#32) 1 := by
  have hback (k : Nat) (hk : 0 < k) (hk16 : k ≤ 16) : back (W.take t) k = W.getD (t - k) 0#32 :=
    back_take W hk (hk16.trans h16) ht
  rw [sha1Next, hback 3, hback 8, hback 14, hback 16] <;> decide

/-- Settles O26: the schedule extends the sixteen block words by sixty-four, and each of them is `sha1Next` of the words
before it. -/
theorem sha1ScheduleRecurrence : Obligations.Sha1ScheduleRecurrence := by
  unfold Obligations.Sha1ScheduleRecurrence
  intro blk
  obtain ⟨hlen, hblock, hnext⟩ := extendSchedule_spec sha1Next 64 (wordsBE32 blk)
  rw [← sha1Schedule, wordsBE32_length] at hlen hblock hnext
  refine ⟨hlen, fun t ht => ?_, fun t h16 h80 => ?_⟩
  · rw [hblock t ht, wordsBE32_getD blk ht]
  · rw [hnext t h16 h80, sha1Next_take _ h16 (hlen ▸ h80.le)]

end Sys2Proof.Machine
end

section
/-! PROOFS. Words as byte sequences, read byte by byte: the length field and the digest (`41_streaming.md` R157, R158),
and the length counter (R152). -/

namespace Sys2Proof.Machine

/-- Pieces of equal length, one behind the other, are read by piece and place in it. -/
theorem byteAt_flatMap {α : Type} {f : α → List Byte} {n : Nat} (hf : ∀ x, (f x).length = n) {d : α} {xs : List α}
    {j k : Nat} (hj : j < xs.length) (hk : k < n) :
    byteAt (xs.flatMap f) (n * j + k) = byteAt (f (xs.getD j d)) k := by
  induction xs generalizing j with
  | nil => exact absurd hj (Nat.not_lt_zero j)
  | cons x xs ih =>
    rw [List.flatMap_cons]
    cases j with
    | zero => rw [Nat.mul_zero, Nat.zero_add, byteAt_append_left (by rwa [hf]), List.getD_cons_zero]
    | succ j =>
      have hskip : n * (j + 1) + k - n = n * j + k := by rw [Nat.mul_succ]; omega
      rw [byteAt_append_right (by rw [hf, Nat.mul_succ]; omega), hf, hskip, List.getD_cons_succ]
      exact ih (Nat.lt_of_succ_lt_succ hj)

/-- Byte `k` of word `j` of a little-endian word sequence (R158). -/
theorem byteAt_flatMap_toLE {w n : Nat} {xs : List (BitVec w)} {j k : Nat} (hj : j < xs.length) (hk : k < n) :
    (byteAt (xs.flatMap fun x => toLE x n) (n * j + k)).toNat = (xs.getD j 0#w).toNat / 256 ^ k % 256 := by
  rw [byteAt_flatMap (toLE_length · n) hj hk, byteAt_toLE _ hk]

/-- Byte `k` of word `j` of a big-endian word sequence (R158). -/
theorem byteAt_flatMap_toBE {w n : Nat} {xs : List (BitVec w)} {j k : Nat} (hj : j < xs.length) (hk : k < n) :
    (byteAt (xs.flatMap fun x => toBE x n) (n * j + k)).toNat = (xs.getD j 0#w).toNat / 256 ^ (n - 1 - k) % 256 := by
  rw [byteAt_flatMap (toBE_length · n) hj hk, byteAt_toBE _ hk]

/-- Settles O25: the bytes are those of the words in order, each in its byte order. -/
theorem serializedBytes : Obligations.SerializedBytes := by
  unfold Obligations.SerializedBytes
  refine ⟨fun h => ?_, fun h => ?_, fun h => ?_, fun h => ?_⟩
  · exact ⟨serialize_length (.md5 h), fun j hj k hk => byteAt_flatMap_toLE (xs := h.words) hj hk⟩
  · exact ⟨serialize_length (.sha1 h), fun j hj k hk => byteAt_flatMap_toBE (xs := h.words) hj hk⟩
  · exact ⟨serialize_length (.sha256 h), fun j hj k hk => byteAt_flatMap_toBE (xs := h.words) hj hk⟩
  · exact ⟨serialize_length (.sha512 h), fun j hj k hk => byteAt_flatMap_toBE (xs := h.words) hj hk⟩

/-- The `m + n` big-endian bytes of a word are those of its upper part and the `n` bytes below it. -/
theorem toBE_add {w : Nat} (x : BitVec w) (m n : Nat) : toBE x (m + n) = toBE (x >>> (8 * n)) m ++ toBE x n := by
  rw [toBE, List.range_add, List.map_append, List.map_map]
  refine congrArg₂ (· ++ ·) (List.map_congr_left fun k hk => ?_) (List.map_congr_left fun k _ => ?_)
  · have hplace : 8 * (m + n - 1 - k) = 8 * n + 8 * (m - 1 - k) := by rw [List.mem_range] at hk; omega
    rw [hplace, BitVec.shiftRight_add]
  · have hplace : m + n - 1 - (m + k) = n - 1 - k := by omega
    rw [Function.comp_apply, hplace]

/-- The `n` big-endian bytes of a word are those of its low `8 * n` bits, in whatever width. -/
theorem toBE_setWidth {v w n : Nat} (x : BitVec w) (hn : 8 * n ≤ v) : toBE (x.setWidth v) n = toBE x n := by
  refine List.map_congr_left fun k hk => BitVec.eq_of_getLsbD_eq fun i hi => ?_
  rw [List.mem_range] at hk
  have hbit : 8 * (n - 1 - k) + i < v := by omega
  simp [hbit]

/-- The bit length of the 64-bit length fields is taken modulo `2^64` (R157). -/
theorem toNat_bitLength64 (len : Word64) : (len * 8#64).toNat = len.toNat * 8 % 2 ^ 64 := BitVec.toNat_mul ..

/-- The bit length of the 128-bit length field is exact (R157). -/
theorem toNat_bitLength128 (len : Word64) : (len.setWidth 128 * 8#128).toNat = len.toNat * 8 := by bv_omega

/-- The low word of the 128-bit bit length is the 64-bit one. -/
theorem bitLength128_low (len : Word64) : (len.setWidth 128 * 8#128).setWidth 64 = len * 8#64 := by
  apply BitVec.eq_of_toNat_eq
  rw [BitVec.toNat_setWidth, toNat_bitLength128, toNat_bitLength64]

/-- The high word of the 128-bit bit length holds the three bits that the factor 8 carries out of 64. -/
theorem bitLength128_high (len : Word64) : (len.setWidth 128 * 8#128) >>> 64 = (len.extractLsb' 61 3).setWidth 128 := by
  apply BitVec.eq_of_toNat_eq
  rw [BitVec.toNat_ushiftRight, toNat_bitLength128, BitVec.toNat_setWidth, BitVec.extractLsb'_toNat,
    Nat.shiftRight_eq_div_pow, Nat.shiftRight_eq_div_pow]
  have := len.isLt
  omega

/-- The SHA-512 length field in two 64-bit words: the bits carried out, and the product (R157). -/
theorem lenField_sha512 (len : Word64) :
    lenField .sha512 len = toBE ((len.extractLsb' 61 3).setWidth 64) 8 ++ toBE (len * 8#64) 8 := by
  rw [lenField, toBE_add _ 8 8, bitLength128_high, ← bitLength128_low, toBE_setWidth _ (v := 128) (by decide),
    toBE_setWidth _ (v := 64) (by decide), toBE_setWidth _ (by decide)]

/-- Settles O24: the field is the bytes of the bit length, modulo `2^64` in 64 bits and exact in 128. -/
theorem lengthFieldBytes : Obligations.LengthFieldBytes := by
  unfold Obligations.LengthFieldBytes
  intro len
  refine ⟨lenField_length .md5 len, fun k hk => ?_, fun alg halg => ⟨?_, fun k hk => ?_⟩, lenField_length .sha512 len,
    fun k hk => ?_, lenField_sha512 len⟩
  · rw [lenField, byteAt_toLE _ hk, toNat_bitLength64]
  · rw [lenField_length]; rcases halg with rfl | rfl <;> rfl
  · have hfield : lenField alg len = toBE (len * 8#64) 8 := by rcases halg with rfl | rfl <;> rfl
    rw [hfield, byteAt_toBE _ hk, toNat_bitLength64]
  · rw [lenField, byteAt_toBE _ hk, toNat_bitLength128]

/-- Settles O29: on every path the counter is the old one plus the length, as words (`absorb_LEN`). -/
theorem lengthCountedOnce : Obligations.LengthCountedOnce := by
  unfold Obligations.LengthCountedOnce
  intro x s
  rw [absorb_LEN, BitVec.toNat_add, BitVec.toNat_ofNat, Nat.add_mod_mod]

end Sys2Proof.Machine
end

section
/-! PROOFS. HSIGN and the key (`42_commands.md` R190): the key is not written, and the MAC is a function of the key and the
message alone. -/

namespace Sys2Proof.Machine

/-- A refused command leaves the key alone (`60_exceptions.md` R226). -/
theorem refuseCommand_sameKey {e : CmdError} {count : Nat} {s t : State} (h : refuseCommand e count s = .next t) :
    sameKey s t := by
  obtain ⟨-, rfl⟩ | ⟨-, rfl⟩ := refuseCommand_cases h
  · exact ⟨rfl, rfl, rfl⟩
  · simp [sameKey]

/-- HSIGN leaves the key alone, whether it is refused, waits for its payload or signs (R190). -/
theorem exec_hsign_sameKey {count : Nat} {s t : State} (h : exec (.hsign count) s = .next t) : sameKey s t := by
  cases hk : s.KVALID with
  | false => exact refuseCommand_sameKey (exec_hsign_nokey hk ▸ h)
  | true =>
    rcases Nat.lt_or_ge s.din.length count with hc | hc
    · rw [exec_of_lt (i := .hsign count) hc fun _ => hk] at h
      cases h
      exact ⟨rfl, rfl, rfl⟩
    · rw [exec_hsign_of_le hk hc] at h
      cases h
      exact ⟨rfl, rfl, rfl⟩

/-- What HSIGN outputs when it signs does not depend on the instances `I` and `O`, on which it is computed: by `sign_eq` it
is the MAC on any two, here fresh ones. -/
theorem exec_hsign_output {count : Nat} {s : State} (hk : s.KVALID = true) (hc : count ≤ s.din.length) :
    ∃ t, exec (.hsign count) s = .next t ∧ t.output = s.output ++
      sign (freshInstance s.KALG) (freshInstance s.KALG) s.K s.KALG (s.din.take count) := by
  refine ⟨_, exec_hsign_of_le hk hc, ?_⟩
  rw [emit_output, sign_eq, sign_eq]
  rfl

/-- Settles O48: no path of HSIGN writes the key, and the output is a function of key, algorithm and message. -/
theorem signingKeepsKey : Obligations.SigningKeepsKey := by
  unfold Obligations.SigningKeepsKey
  refine ⟨fun _ _ _ => exec_hsign_sameKey, fun count s s' hK hA hv hv' hc hc' hmsg => ?_⟩
  obtain ⟨t, ht, hout⟩ := exec_hsign_output hv hc
  obtain ⟨t', ht', hout'⟩ := exec_hsign_output hv' hc'
  rw [hK, hA, ← hmsg] at hout'
  exact ⟨t, t', _, ht, ht', hout, hout'⟩

end Sys2Proof.Machine
end

section
/-! PROOFS. CLRERR and the error record (`42_commands.md` R191; `60_exceptions.md` R223, R226, R227). -/

namespace Sys2Proof.Machine

/-- CLRERR has no operand, so that one word alone has its form (`30_encoding.md` R76). -/
theorem fieldsFit_clrerr_iff {w : Word32} (h : w.extractLsb' 0 4 = Op.clrerr.code) :
    fieldsFit .clrerr w ↔ w = 0x0000000F#32 := by
  have hmask : w &&& Op.clrerr.mask = w := BitVec.and_allOnes
  have hform := mask_iff .clrerr w
  rw [hmask] at hform
  exact ⟨fun hfit => hform.mpr ⟨h, hfit⟩, fun hw => (hform.mp hw).2⟩

/-- A word of a legal operation that breaks its form is refused with `E_FIELD` (R223). -/
theorem executeCommand_of_not_fieldsFit {w : Word32} {o : Op} (h : w.extractLsb' 0 4 = o.code) (hfit : ¬ fieldsFit o w)
    (s : State) : executeCommand w s = refuseCommand .field (countField w) s := by
  rw [executeCommand, decode_of_code h, if_neg hfit]

/-- Where an error is on record already, a refused command leaves the record alone (R227). -/
theorem refuseCommand_sameError_of_set {e : CmdError} {count : Nat} {s t : State} (hs : s.ERR = true)
    (h : refuseCommand e count s = .next t) : sameError s t := by
  obtain ⟨-, rfl⟩ | ⟨-, rfl⟩ := refuseCommand_cases h
  · exact ⟨rfl, rfl⟩
  · rw [recordError_of_set e (s.dropInput count) hs]
    exact ⟨rfl, rfl⟩

/-- A record without an error shows code 00 (R32). -/
theorem State.ErrorWf.code_of_clear {s : State} (h : s.ErrorWf) (hs : s.ERR = false) : s.ERRCODE = 0b00#2 := by
  by_contra hcode
  exact absurd (h.mpr hcode) (by simp [hs])

/-- Clearing the record and completing changes nothing of an idle block with a clear record. -/
theorem setError_complete_of_clear {s : State} (hs : s.ERR = false) (hcode : s.ERRCODE = 0b00#2)
    (hidle : s.activity = .idle) : (s.setError false 0b00#2).complete = s := by
  cases s
  cases hs
  cases hcode
  cases hidle
  rfl

/-- Settles O50: the first clause is the effect of `exec_clrerr`, the others what becomes of a word that breaks the form. -/
theorem clrerrClearsRecord : Obligations.ClrerrClearsRecord := by
  unfold Obligations.ClrerrClearsRecord
  refine ⟨fun s => ⟨_, exec_clrerr s, rfl, rfl, rfl, rfl, ⟨rfl, rfl⟩, ⟨rfl, rfl, rfl⟩, ⟨rfl, rfl, rfl⟩,
    ⟨rfl, rfl, rfl, rfl⟩, rfl, fun hs hwf hidle => setError_complete_of_clear hs (hwf.code_of_clear hs) hidle⟩,
    fun w s hop => ?_, fun w s t hop hw hexec hs => ?_⟩
  · rw [checkCommand_of_code (o := .clrerr) hop, ite_not]
    exact if_congr (fieldsFit_clrerr_iff hop) (if_neg (by simp)) rfl
  · rw [executeCommand_of_not_fieldsFit (o := .clrerr) hop (mt (fieldsFit_clrerr_iff hop).mp hw)] at hexec
    exact refuseCommand_sameError_of_set hs hexec

end Sys2Proof.Machine
end

section
/-! PROOFS. The error check (`60_exceptions.md` R222, R223, R225). A word has an illegal operation, or a legal one whose
form it breaks, or a legal one whose form it keeps; `checkCommand` and `executeCommand` have one answer in each case. -/

namespace Sys2Proof.Machine

variable {w : Word32} {o : Op}

/-! ## Each case of the check -/

theorem checkCommand_of_not_fieldsFit (h : w.extractLsb' 0 4 = o.code) (hfit : ¬ fieldsFit o w) (s : State) :
    checkCommand w s = some .field := by
  rw [checkCommand_of_code h, if_neg hfit]

theorem checkCommand_of_fieldsFit (h : w.extractLsb' 0 4 = o.code) (hfit : fieldsFit o w) (s : State) :
    checkCommand w s = if o = .hsign ∧ s.KVALID = false then some .nokey else none := by
  rw [checkCommand_of_code h, if_pos hfit]

/-- The check reads nothing of the state but `KVALID` (R225). -/
theorem checkCommand_congr {s t : State} (h : s.KVALID = t.KVALID) (w : Word32) :
    checkCommand w s = checkCommand w t := by
  simp only [checkCommand, h]

/-- The three cases of the check. -/
theorem checkCommand_cases (w : Word32) (s : State) :
    (w.extractLsb' 0 4 ∈ illegalOps ∧ checkCommand w s = some .illop) ∨
    (∃ o : Op, w.extractLsb' 0 4 = o.code ∧ ¬ fieldsFit o w ∧ checkCommand w s = some .field) ∨
    (∃ o : Op, w.extractLsb' 0 4 = o.code ∧ fieldsFit o w ∧
      checkCommand w s = if o = .hsign ∧ s.KVALID = false then some .nokey else none) := by
  obtain hop | ⟨o, hop⟩ := op_cases w
  · exact .inl ⟨hop, checkCommand_of_illegal hop s⟩
  · by_cases hfit : fieldsFit o w
    · exact .inr (.inr ⟨o, hop, hfit, checkCommand_of_fieldsFit hop hfit s⟩)
    · exact .inr (.inl ⟨o, hop, hfit, checkCommand_of_not_fieldsFit hop hfit s⟩)

/-! ## Each error -/

theorem checkCommand_eq_illop_iff (w : Word32) (s : State) :
    checkCommand w s = some .illop ↔ w.extractLsb' 0 4 ∈ illegalOps := by
  refine ⟨fun hcheck => ?_, fun hop => checkCommand_of_illegal hop s⟩
  obtain ⟨hop, -⟩ | ⟨o, -, -, hans⟩ | ⟨o, -, -, hans⟩ := checkCommand_cases w s
  · exact hop
  · simp [hans] at hcheck
  · rw [hans] at hcheck
    split at hcheck <;> cases hcheck

theorem checkCommand_eq_field_iff (w : Word32) (s : State) : checkCommand w s = some .field ↔ breaksForm w := by
  rw [breaksForm_iff]
  refine ⟨fun hcheck => ?_, fun ⟨o, hop, hfit⟩ => checkCommand_of_not_fieldsFit hop hfit s⟩
  obtain ⟨-, hans⟩ | ⟨o, hop, hfit, -⟩ | ⟨o, -, -, hans⟩ := checkCommand_cases w s
  · simp [hans] at hcheck
  · exact ⟨o, hop, hfit⟩
  · rw [hans] at hcheck
    split at hcheck <;> cases hcheck

theorem checkCommand_eq_nokey_iff (w : Word32) (s : State) :
    checkCommand w s = some .nokey ↔ (w.extractLsb' 0 4 = Op.hsign.code ∧ fieldsFit .hsign w) ∧ s.KVALID = false := by
  constructor
  · intro hcheck
    obtain ⟨-, hans⟩ | ⟨o, -, -, hans⟩ | ⟨o, hop, hfit, hans⟩ := checkCommand_cases w s
    · simp [hans] at hcheck
    · simp [hans] at hcheck
    · rw [hans] at hcheck
      split at hcheck
      case isTrue hsign =>
        obtain ⟨rfl, hk⟩ := hsign
        exact ⟨⟨hop, hfit⟩, hk⟩
      case isFalse => cases hcheck
  · rintro ⟨⟨hop, hfit⟩, hk⟩
    rw [checkCommand_of_fieldsFit hop hfit, if_pos ⟨rfl, hk⟩]

/-! ## What becomes of the word -/

theorem executeCommand_of_illegal (hop : w.extractLsb' 0 4 ∈ illegalOps) (s : State) :
    executeCommand w s = refuseCommand .illop (countField w) s := by
  rw [executeCommand, (decode_eq_illop_iff w).mpr hop]

theorem decode_of_fieldsFit (hop : w.extractLsb' 0 4 = o.code) (hfit : fieldsFit o w) :
    decode w = .ok (o.instr (Alg.ofCode (w.extractLsb' 4 2)) (countField w)) := by
  rw [decode_of_code hop, if_pos hfit]
  rfl

theorem executeCommand_of_decode {i : Instr} (h : decode w = .ok i) (s : State) : executeCommand w s = exec i s := by
  rw [executeCommand, h]

theorem instr_count (o : Op) (alg : Alg) (count : Nat) :
    (o.instr alg count).count = if o.countless then 0 else count := by
  cases o <;> rfl

/-- A command takes as many payload bytes as its word's `COUNT` says, also where R76 requires 0. -/
theorem instr_count_of_fieldsFit (hfit : fieldsFit o w) (alg : Alg) :
    (o.instr alg (countField w)).count = countField w := by
  obtain ⟨-, -, hcount⟩ := hfit
  rw [instr_count]
  split
  case isTrue hcountless => rw [countField, hcount hcountless]; rfl
  case isFalse => rfl

/-- Whatever error the check finds, the command is refused with it (R225). -/
theorem executeCommand_of_checkCommand_eq_some {s : State} {e : CmdError} (h : checkCommand w s = some e) :
    executeCommand w s = refuseCommand e (countField w) s := by
  cases e with
  | illop => exact executeCommand_of_illegal ((checkCommand_eq_illop_iff w s).mp h) s
  | field =>
    obtain ⟨o, hop, hfit⟩ := (breaksForm_iff w).mp ((checkCommand_eq_field_iff w s).mp h)
    exact executeCommand_of_not_fieldsFit hop hfit s
  | nokey =>
    obtain ⟨⟨hop, hfit⟩, hk⟩ := (checkCommand_eq_nokey_iff w s).mp h
    rw [executeCommand_of_decode (decode_of_fieldsFit hop hfit)]
    exact exec_hsign_nokey hk

/-- Where the check finds no error, the word stands for a command (R225). -/
theorem decode_of_checkCommand_eq_none {s : State} (h : checkCommand w s = none) :
    ∃ i, decode w = .ok i ∧ i.count = countField w := by
  obtain ⟨-, hans⟩ | ⟨o, -, -, hans⟩ | ⟨o, hop, hfit, -⟩ := checkCommand_cases w s
  · simp [hans] at h
  · simp [hans] at h
  · exact ⟨_, decode_of_fieldsFit hop hfit, instr_count_of_fieldsFit hfit _⟩

/-! ## The statements -/

/-- A word of a legal operation that keeps its form fits that operation. -/
theorem fieldsFit_of_legal (hop : w.extractLsb' 0 4 ∉ illegalOps) (hform : ¬ breaksForm w) :
    ∃ o : Op, w.extractLsb' 0 4 = o.code ∧ fieldsFit o w := by
  obtain ⟨o, ho⟩ := (op_cases w).resolve_left hop
  exact ⟨o, ho, by_contra fun hfit => hform ((breaksForm_iff w).mpr ⟨o, ho, hfit⟩)⟩

theorem code_injective : Function.Injective Op.code := fun a b h => by
  have hop : Op.ofCode a.code = Op.ofCode b.code := congrArg _ h
  simpa using hop

/-- Settles O4: only an illegal operation is answered `E_ILLOP`, and it is refused before any other field is read. -/
theorem illegalOperationRaisedExactly : Obligations.IllegalOperationRaisedExactly := by
  unfold Obligations.IllegalOperationRaisedExactly
  exact fun w s => ⟨checkCommand_eq_illop_iff w s, fun hop => executeCommand_of_illegal hop s⟩

/-- Settles O5: only a legal operation whose fields do not fit is answered `E_FIELD`. -/
theorem fieldErrorRaisedExactly : Obligations.FieldErrorRaisedExactly := by
  unfold Obligations.FieldErrorRaisedExactly
  exact fun w s => ⟨checkCommand_eq_field_iff w s,
    fun hform => executeCommand_of_checkCommand_eq_some ((checkCommand_eq_field_iff w s).mpr hform)⟩

/-- Settles O7: of a word that keeps its form the check still asks whether it is an HSIGN and whether a key is stored. -/
theorem errorPriority : Obligations.ErrorPriority := by
  unfold Obligations.ErrorPriority
  refine ⟨fun w s => (checkCommand_eq_illop_iff w s).mpr, fun w s _ => (checkCommand_eq_field_iff w s).mpr,
    fun w s hop hform hsign hk => ?_, fun w s hop hform hkey => ?_, fun w s t hk => checkCommand_congr hk w,
    fun w s e => executeCommand_of_checkCommand_eq_some, fun w s hnone => ?_⟩
  · obtain ⟨o, ho, hfit⟩ := fieldsFit_of_legal hop hform
    obtain rfl : o = .hsign := code_injective (ho.symm.trans hsign)
    exact (checkCommand_eq_nokey_iff w s).mpr ⟨⟨hsign, hfit⟩, hk⟩
  · obtain ⟨o, ho, hfit⟩ := fieldsFit_of_legal hop hform
    have hkeyed : ¬ (o = .hsign ∧ s.KVALID = false) := by
      rintro ⟨rfl, hk⟩
      simp [hkey ho] at hk
    rw [checkCommand_of_fieldsFit ho hfit, if_neg hkeyed]
  · obtain ⟨i, hdec, hcount⟩ := decode_of_checkCommand_eq_none hnone
    exact ⟨i, hdec, hcount, executeCommand_of_decode hdec s⟩

end Sys2Proof.Machine
end

section
/-! PROOFS. What commands and moves of the host leave of the block (`60_exceptions.md` R224, R226, R227, R238): the error
record is written by CLRERR and by refusals alone, `KVALID` by HKEY alone, and a move of the host but a reset leaves all
but the data-in stream. -/

namespace Sys2Proof.Machine

/-! ## Commands -/

/-- A command that runs writes the error record only if it is CLRERR, and the key only if it is HKEY. -/
theorem exec_frames_of_le {i : Instr} {s : State} (hc : i.count ≤ s.din.length) (hk : i.op = .hsign → s.KVALID = true) :
    ∃ t, exec i s = .next t ∧ (i ≠ .clrerr → sameError s t) ∧ (i.op ≠ .hkey → sameKey s t) := by
  cases i with
  | init alg => exact ⟨_, exec_init alg s, fun _ => ⟨rfl, rfl⟩, fun _ => ⟨rfl, rfl, rfl⟩⟩
  | reset => exact ⟨_, exec_reset s, fun _ => ⟨rfl, rfl⟩, fun _ => ⟨rfl, rfl, rfl⟩⟩
  | update count =>
    obtain ⟨x, d, hupd⟩ := updateD_cases (s.din.take count) (s.dropInput count)
    refine ⟨_, exec_update_of_le hc, ?_⟩
    rw [hupd]
    exact ⟨fun _ => ⟨rfl, rfl⟩, fun _ => ⟨rfl, rfl, rfl⟩⟩
  | result =>
    cases hph : s.D.PHASE with
    | absorb => exact ⟨_, exec_result_absorb hph, fun _ => ⟨rfl, rfl⟩, fun _ => ⟨rfl, rfl, rfl⟩⟩
    | final => exact ⟨_, exec_result_final hph, fun _ => ⟨rfl, rfl⟩, fun _ => ⟨rfl, rfl, rfl⟩⟩
  | digest alg count => exact ⟨_, exec_digest_of_le hc, fun _ => ⟨rfl, rfl⟩, fun _ => ⟨rfl, rfl, rfl⟩⟩
  | hkey alg count => exact ⟨_, exec_hkey_of_le hc, fun _ => ⟨rfl, rfl⟩, fun hne => absurd rfl hne⟩
  | hsign count => exact ⟨_, exec_hsign_of_le (hk rfl) hc, fun _ => ⟨rfl, rfl⟩, fun _ => ⟨rfl, rfl, rfl⟩⟩
  | clrerr => exact ⟨_, exec_clrerr s, fun hne => absurd rfl hne, fun _ => ⟨rfl, rfl, rfl⟩⟩

/-- The one command that is refused is HSIGN, with no key stored. -/
theorem exec_nokey {i : Instr} {s : State} (hop : i.op = .hsign) (hk : s.KVALID = false) :
    exec i s = refuseCommand .nokey i.count s := by
  cases i <;> cases hop
  exact exec_hsign_nokey hk

/-- A command is refused, or it writes the error record only if it is CLRERR and the key only if it is HKEY, whether it
waits for its payload or runs. -/
theorem exec_refused_or_frames {i : Instr} {s t : State} (h : exec i s = .next t) :
    refuseCommand .nokey i.count s = .next t ∨ ((i ≠ .clrerr → sameError s t) ∧ (i.op ≠ .hkey → sameKey s t)) := by
  by_cases hk : i.op = .hsign → s.KVALID = true
  · right
    rcases Nat.lt_or_ge s.din.length i.count with hc | hc
    · rw [exec_of_lt hc hk] at h
      cases h
      exact ⟨fun _ => ⟨rfl, rfl⟩, fun _ => ⟨rfl, rfl, rfl⟩⟩
    · obtain ⟨u, hu, hframes⟩ := exec_frames_of_le hc hk
      obtain rfl : u = t := Host.Outcome.next.inj (hu.symm.trans h)
      exact hframes
  · obtain ⟨hop, hk⟩ := Classical.not_imp.mp hk
    exact .inl (exec_nokey hop (by simpa using hk) ▸ h)

/-- No command but HKEY writes the key or its tags. -/
theorem exec_sameKey {i : Instr} {s t : State} (h : exec i s = .next t) (hi : i.op ≠ .hkey) : sameKey s t := by
  obtain href | ⟨-, hkey⟩ := exec_refused_or_frames h
  · exact refuseCommand_sameKey href
  · exact hkey hi

/-- No command but CLRERR writes the error record where an error is on it (R227). -/
theorem exec_sameError_of_set {i : Instr} {s t : State} (hs : s.ERR = true) (h : exec i s = .next t)
    (hi : i ≠ .clrerr) : sameError s t := by
  obtain href | ⟨herr, -⟩ := exec_refused_or_frames h
  · exact refuseCommand_sameError_of_set hs href
  · exact herr hi

/-- Settles O6: `KVALID` is part of the key, which no command but HKEY and no refusal writes. -/
theorem noKeyRaisedExactly : Obligations.NoKeyRaisedExactly := by
  unfold Obligations.NoKeyRaisedExactly
  refine ⟨fun w s => ?_, fun _ _ => exec_hsign_nokey, rfl, fun i s t h hi => ?_, fun e count s t h => ?_⟩
  · exact (checkCommand_eq_nokey_iff w s).trans (and_congr_left' (mask_iff .hsign w).symm)
  · obtain ⟨-, -, hvalid⟩ := exec_sameKey h hi
    exact hvalid
  · obtain ⟨-, -, hvalid⟩ := refuseCommand_sameKey h
    exact hvalid

/-! ## The idle core and refused commands -/

/-- A core that is idle and out of reset accepts the next command word that is offered. -/
theorem coreStep_of_idle {s : State} {w : Word32} {rest : List Word32} (hrst : s.rst = false)
    (hidle : s.activity = .idle) (hcmds : s.cmds = w :: rest) : coreStep s = executeCommand w { s with cmds := rest } := by
  simp [coreStep, hrst, hidle, hcmds]

/-- A core that is idle and out of reset holds its state where no word is offered (R238). -/
theorem coreStep_of_idle_nil {s : State} (hrst : s.rst = false) (hidle : s.activity = .idle) (hcmds : s.cmds = []) :
    coreStep s = .next s := by
  simp [coreStep, hrst, hidle, hcmds]

/-- Settles O8: the state it completes in is the old one with the payload dropped and the error recorded. -/
theorem refusedCommandEffect : Obligations.RefusedCommandEffect := by
  unfold Obligations.RefusedCommandEffect
  intro e count s hc
  refine ⟨_, refuseCommand_of_le hc, by simp, by simp [sameOutput], by simp, by simp [sameScratch], by simp [sameKey],
    by simp [sameHost], by simp, fun hs => ?_, fun hs => ?_, rfl,
    fun w rest hrst hcmds => coreStep_of_idle hrst rfl hcmds⟩
  · rw [recordError_of_set e (s.dropInput count) hs]; rfl
  · rw [recordError_of_clear e (s.dropInput count) hs]; rfl

/-! ## Moves of the host -/

/-- No move of the host but a reset changes the block, apart from bytes that join the data-in stream. -/
theorem hostMove_frames {m : HostMove} (hm : ∀ b, m ≠ .setReset b) (s : State) :
    (hostMove m s).D = s.D ∧ sameScratch s (hostMove m s) ∧ sameKey s (hostMove m s) ∧ sameError s (hostMove m s) ∧
      (hostMove m s).activity = s.activity ∧ (hostMove m s).dout = s.dout ∧ ∃ bs, (hostMove m s).din = s.din ++ bs := by
  cases m with
  | offerCommand w => exact ⟨rfl, ⟨rfl, rfl⟩, ⟨rfl, rfl, rfl⟩, ⟨rfl, rfl⟩, rfl, rfl, [], (List.append_nil _).symm⟩
  | offerBytes bs => exact ⟨rfl, ⟨rfl, rfl⟩, ⟨rfl, rfl, rfl⟩, ⟨rfl, rfl⟩, rfl, rfl, bs, rfl⟩
  | acceptBytes n => exact ⟨rfl, ⟨rfl, rfl⟩, ⟨rfl, rfl, rfl⟩, ⟨rfl, rfl⟩, rfl, rfl, [], (List.append_nil _).symm⟩
  | readStatus => exact ⟨rfl, ⟨rfl, rfl⟩, ⟨rfl, rfl, rfl⟩, ⟨rfl, rfl⟩, rfl, rfl, [], (List.append_nil _).symm⟩
  | setReset b => exact absurd rfl (hm b)
  | letCore => exact ⟨rfl, ⟨rfl, rfl⟩, ⟨rfl, rfl, rfl⟩, ⟨rfl, rfl⟩, rfl, rfl, [], (List.append_nil _).symm⟩

/-- A step is a move of the core or the next move of the script. -/
theorem step_cases {s t : State} (h : step s = .next t) :
    coreStep { s with script := s.script.tail } = .next t ∨
      ∃ m rest, s.script = m :: rest ∧ t = hostMove m { s with script := rest } := by
  unfold step machineStep at h
  split at h
  case h_1 hscript =>
    cases s
    cases hscript
    exact .inl h
  case h_2 rest hscript => exact .inl (by simpa [hscript] using h)
  case h_3 m rest _ hscript => exact .inr ⟨m, rest, hscript, (Host.Outcome.next.inj h).symm⟩

/-- Settles O13: an idle core with no word to accept answers the state it is in, and so does the step it makes. -/
theorem idleBlockHoldsState : Obligations.IdleBlockHoldsState := by
  unfold Obligations.IdleBlockHoldsState
  intro s hidle hcmds hrst
  have hcore := coreStep_of_idle_nil hrst hidle hcmds
  refine ⟨hcore, fun hscript => by simpa [step, machineStep, hscript] using hcore, fun m hm => ?_⟩
  rw [← hidle]
  exact hostMove_frames hm s

/-! ## The error record -/

/-- Only CLRERR's own word decodes to CLRERR. -/
theorem eq_of_decode_clrerr {w : Word32} (h : decode w = .ok .clrerr) : w = 0x0000000F#32 := by
  obtain hop | ⟨o, hop⟩ := op_cases w
  · rw [(decode_eq_illop_iff w).mpr hop] at h
    cases h
  · rw [decode_of_code hop] at h
    split at h
    case isTrue hfit =>
      cases o <;> cases h
      exact (fieldsFit_clrerr_iff hop).mp hfit
    case isFalse => cases h

/-- No word but CLRERR's writes the error record where an error is on it. -/
theorem executeCommand_sameError_of_set {w : Word32} {s t : State} (hs : s.ERR = true)
    (h : executeCommand w s = .next t) (hw : w ≠ 0x0000000F#32) : sameError s t := by
  unfold executeCommand at h
  split at h
  case h_1 i hdec =>
    exact exec_sameError_of_set hs h fun hi => hw (eq_of_decode_clrerr (hi ▸ hdec))
  case h_2 => exact refuseCommand_sameError_of_set hs h

/-- A move of the core keeps an error on record, except in reset or for CLRERR. -/
theorem coreStep_sameError_of_set {s t : State} (hs : s.ERR = true) (h : coreStep s = .next t) :
    sameError s t ∨ s.rst = true ∨ s.activity = .running .clrerr ∨
      (s.activity = .idle ∧ s.cmds.head? = some 0x0000000F#32) := by
  by_cases hrst : s.rst = true
  · exact .inr (.inl hrst)
  cases hact : s.activity with
  | idle =>
    cases hcmds : s.cmds with
    | nil =>
      obtain rfl := Host.Outcome.next.inj ((coreStep_of_idle_nil (by simpa using hrst) hact hcmds).symm.trans h)
      exact .inl ⟨rfl, rfl⟩
    | cons w rest =>
      rw [coreStep_of_idle (by simpa using hrst) hact hcmds] at h
      by_cases hw : w = 0x0000000F#32
      · simp [hw]
      · exact .inl (executeCommand_sameError_of_set (s := { s with cmds := rest }) hs h hw)
  | running i =>
    by_cases hi : i = .clrerr
    · simp [hi]
    · exact .inl (exec_sameError_of_set hs (by simpa [coreStep, hrst, hact] using h) hi)
  | discarding e count => exact .inl (refuseCommand_sameError_of_set hs (by simpa [coreStep, hrst, hact] using h))
  | draining =>
    obtain rfl : s.drain = t := by simpa [coreStep, hrst, hact] using h
    exact .inl ⟨rfl, rfl⟩

/-- A move of the host keeps the error record, except where it asserts or releases reset. -/
theorem hostMove_sameError (m : HostMove) (s : State) :
    sameError s (hostMove m s) ∨ s.rst = true ∨ m = .setReset true := by
  by_cases hm : ∀ b, m ≠ .setReset b
  · obtain ⟨-, -, -, herr, -⟩ := hostMove_frames hm s
    exact .inl herr
  · obtain ⟨b, rfl⟩ : ∃ b, m = .setReset b := by simpa only [not_forall, not_not] using hm
    cases b with
    | true => exact .inr (.inr rfl)
    | false =>
      cases hrst : s.rst with
      | true => exact .inr (.inl rfl)
      | false => exact .inl (by simp [hostMove, hrst, sameError])

/-- Settles O9: what a refusal records, and then, move by move, that nothing else writes the record. -/
theorem errorRecordKeepsFirst : Obligations.ErrorRecordKeepsFirst := by
  unfold Obligations.ErrorRecordKeepsFirst
  refine ⟨fun s hs => ⟨recordError_of_clear _ s hs, recordError_of_clear _ s hs, recordError_of_clear _ s hs⟩,
    fun e s => recordError_of_set e s, fun i s t h hi hs => exec_sameError_of_set hs h hi, fun s t h hs => ?_⟩
  obtain hcore | ⟨m, rest, hscript, rfl⟩ := step_cases h
  · obtain hsame | hrst | hclr := coreStep_sameError_of_set (s := { s with script := s.script.tail }) hs hcore
    · exact .inl hsame
    · exact .inr (.inl hrst)
    · exact .inr (.inr (.inr hclr))
  · obtain hsame | hrst | rfl := hostMove_sameError m { s with script := rest }
    · exact .inl hsame
    · exact .inr (.inl hrst)
    · exact .inr (.inr (.inl (by rw [hscript]; rfl)))

end Sys2Proof.Machine
end

section
/-! PROOFS. Output and completion (`70_reset_and_hazards.md` R256): a draining core only hands over what the host stands
ready for, and a command that writes output completes exactly if the host stands ready for all of it. -/

namespace Sys2Proof.Machine

theorem busy_eq_false_iff (s : State) : s.busy = false ↔ s.activity = .idle := by simp [State.busy]

/-! ## Draining -/

/-- A core with output pending accepts no word: its move is the host's acceptance and nothing else. -/
theorem coreStep_of_draining {s : State} (hrst : s.rst = false) (hact : s.activity = .draining) :
    coreStep s = .next s.drain := by
  simp [coreStep, hrst, hact]

/-- Accepting output completes the command exactly if nothing is left of it (R33). -/
theorem drain_busy_eq_false_iff (s : State) : s.drain.busy = false ↔ s.dout.length ≤ s.credit := by
  simp [busy_eq_false_iff]

/-- Where the host stands ready for no byte, a draining command is stuck: its move changes nothing. -/
theorem drain_eq_self {s : State} (hact : s.activity = .draining) (hcredit : s.credit = 0)
    (hpending : s.dout ≠ []) : s.drain = s := by
  cases s
  cases hact
  cases hcredit
  simpa [State.drain] using hpending

/-! ## Commands that write output -/

theorem Alg.N_cases (alg : Alg) : alg.N = 16 ∨ alg.N = 20 ∨ alg.N = 32 ∨ alg.N = 64 := by
  cases alg <;> decide

/-- RESULT, DIGEST and a signing HSIGN write `N` bytes of some algorithm as their last action, and leave the output side
as it is until then (R52, R184, R185, R189). -/
theorem exec_emits {i : Instr} {s : State} (hop : i.op = .result ∨ i.op = .digest ∨ i.op = .hsign ∧ s.KVALID = true)
    (hc : i.count ≤ s.din.length) :
    ∃ (alg : Alg) (u : State) (out : List Byte),
      exec i s = .next (u.emit out) ∧ out.length = alg.N ∧ sameOutput s u := by
  cases i with
  | result =>
    cases hph : s.D.PHASE with
    | absorb => exact ⟨s.D.ALG, _, _, exec_result_absorb hph, finalize_length s.D, rfl, rfl, rfl⟩
    | final => exact ⟨s.D.ALG, _, _, exec_result_final hph, freeBytes_length .., rfl, rfl, rfl⟩
  | digest alg count => exact ⟨alg, _, _, exec_digest_of_le hc, digest_length .., rfl, rfl, rfl⟩
  | hsign count =>
    have hkey : s.KVALID = true := by simpa [Instr.op] using hop
    exact ⟨s.KALG, _, _, exec_hsign_of_le hkey hc, sign_length .., rfl, rfl, rfl⟩
  | init | reset | update | hkey | clrerr => simp [Instr.op] at hop

/-- Written with no output pending, the output of a command is all accepted exactly if the host stands ready for as many
bytes. -/
theorem emit_busy_eq_false_iff {s : State} (hdout : s.dout = []) (out : List Byte) :
    (s.emit out).busy = false ↔ out.length ≤ s.credit := by
  simp [busy_eq_false_iff, hdout]

/-- Settles O18: the move of a draining core is `State.drain`, and a command that writes output ends in `State.emit`. -/
theorem undrainedOutputIsStuck : Obligations.UndrainedOutputIsStuck := by
  unfold Obligations.UndrainedOutputIsStuck
  refine ⟨fun s hrst hact hlt => ?_, fun s hrst hact hle => ?_, fun i s t hop hc hdout h => ?_⟩
  · have hbusy : s.drain.busy = true := by
      rw [← Bool.not_eq_false, drain_busy_eq_false_iff]
      exact hlt.not_ge
    have hpending : s.dout ≠ [] := List.ne_nil_of_length_pos (Nat.zero_lt_of_lt hlt)
    exact ⟨s.drain, coreStep_of_draining hrst hact, hbusy, rfl, rfl, rfl, fun h0 => drain_eq_self hact h0 hpending⟩
  · exact ⟨s.drain, coreStep_of_draining hrst hact, (drain_busy_eq_false_iff s).mpr hle, List.drop_of_length_le hle,
      by rw [State.drain_taken, List.take_of_length_le hle], rfl⟩
  · obtain ⟨alg, u, out, hexec, hlen, hdout', htaken, hcredit⟩ := exec_emits hop hc
    obtain rfl : u.emit out = t := Host.Outcome.next.inj (hexec.symm.trans h)
    refine ⟨alg.N, Alg.N_cases alg, ?_, ?_⟩
    · rw [emit_output, List.length_append, hlen, State.output, hdout', htaken, ← State.output]
    · rw [emit_busy_eq_false_iff (hdout'.trans hdout), hlen, hcredit]

end Sys2Proof.Machine
end

section
/-! PROOFS. The command word and back (`30_encoding.md` sections 1 to 3): a command's word has the command's operands in
its fields, and a word that keeps its operation's form is put together again from them. -/

namespace Sys2Proof.Machine

/-- Settles O1: each of the words of R84 is decoded. -/
theorem exampleWordsDecode : Obligations.ExampleWordsDecode := by
  unfold Obligations.ExampleWordsDecode
  decide

/-! ## From a command to its word -/

/-- The word of a command keeps the form of its operation (R76). -/
theorem encode_fieldsFit (i : Instr) : fieldsFit i.op (encode i) := by
  have hform : Laws.EncodingFits.Statement i := by
    cases i with
    | init alg => exact Laws.EncodingFits.init alg
    | reset => exact Laws.EncodingFits.reset
    | update count => exact Laws.EncodingFits.update count
    | result => exact Laws.EncodingFits.result
    | digest alg count => exact Laws.EncodingFits.digest alg count
    | hkey alg count => exact Laws.EncodingFits.hkey alg count
    | hsign count => exact Laws.EncodingFits.hsign count
    | clrerr => exact Laws.EncodingFits.clrerr
  obtain ⟨-, hfit⟩ := (mask_iff i.op (encode i)).mp hform
  exact hfit

/-- A command has an encoding exactly if its payload count fits the `COUNT` field (R74). -/
theorem wf_eq_countFits (i : Instr) : i.wf = countFits i.count := by
  cases i <;> rfl

/-- The `COUNT` field of a command's word is its payload count (R74). -/
theorem countField_encode {i : Instr} (h : i.wf = true) : countField (encode i) = i.count := by
  rw [wf_eq_countFits, countFits, decide_eq_true_iff] at h
  rw [countField, encode_count, BitVec.toNat_ofNat, Nat.mod_eq_of_lt h]

/-- A command is its operation with its own operands. -/
theorem instr_op_operands (i : Instr) : i.op.instr (Alg.ofCode i.algCode) i.count = i := by
  cases i <;> simp [Instr.op, Instr.algCode, Instr.count, Op.instr]

/-- Settles O2: the word has the form of its operation, and its fields give back the operands. -/
theorem decodeOfEncode : Obligations.DecodeOfEncode := by
  unfold Obligations.DecodeOfEncode
  intro i hwf
  rw [decode_of_fieldsFit (encode_op i) (encode_fieldsFit i), encode_alg, countField_encode hwf, instr_op_operands]

/-! ## From a word to its command -/

theorem instr_op (o : Op) (alg : Alg) (count : Nat) : (o.instr alg count).op = o := by
  cases o <;> rfl

/-- The selector of the command of a word that keeps its form is the word's `ALG`, also where R76 requires 00. -/
theorem instr_algCode_of_fieldsFit {o : Op} {w : Word32} (hfit : fieldsFit o w) (count : Nat) :
    (o.instr (Alg.ofCode (w.extractLsb' 4 2)) count).algCode = w.extractLsb' 4 2 := by
  obtain ⟨-, halg, -⟩ := hfit
  cases o with
  | init | digest | hkey => exact Alg.code_ofCode _
  | reset | update | result | hsign | clrerr => exact (halg rfl).symm

theorem countField_lt (w : Word32) : countField w < 2 ^ 24 := (w.extractLsb' 8 24).isLt

/-- A word that keeps the form of its operation is the word of the command it decodes to. -/
theorem encode_instr_of_fieldsFit {o : Op} {w : Word32} (hop : w.extractLsb' 0 4 = o.code) (hfit : fieldsFit o w) :
    encode (o.instr (Alg.ofCode (w.extractLsb' 4 2)) (countField w)) = w := by
  have hrsv : w.extractLsb' 6 2 = 0#2 := hfit.1
  conv_rhs => rw [eq_fieldsWord w]
  rw [encode, packWord_eq, instr_count_of_fieldsFit hfit, instr_algCode_of_fieldsFit hfit, instr_op, hop, hrsv,
    countField, BitVec.ofNat_toNat, BitVec.setWidth_eq]

/-- A word that decodes to a command keeps the form of an operation, and the command is read off its fields. -/
theorem fieldsFit_of_decode {w : Word32} {i : Instr} (h : decode w = .ok i) :
    ∃ o : Op, w.extractLsb' 0 4 = o.code ∧ fieldsFit o w ∧
      i = o.instr (Alg.ofCode (w.extractLsb' 4 2)) (countField w) := by
  obtain hop | ⟨o, hop⟩ := op_cases w
  · rw [(decode_eq_illop_iff w).mpr hop] at h
    cases h
  · rw [decode_of_code hop] at h
    split at h
    case isTrue hfit => exact ⟨o, hop, hfit, (Except.ok.inj h).symm⟩
    case isFalse => cases h

/-- The command that a word decodes to takes as many payload bytes as the word's `COUNT` says (R74). -/
theorem count_of_decode {w : Word32} {i : Instr} (h : decode w = .ok i) : i.count = countField w := by
  obtain ⟨o, -, hfit, rfl⟩ := fieldsFit_of_decode h
  exact instr_count_of_fieldsFit hfit _

theorem wf_of_decode {w : Word32} {i : Instr} (h : decode w = .ok i) : i.wf = true := by
  rw [wf_eq_countFits, count_of_decode h]
  exact decide_eq_true (countField_lt w)

/-- Settles O3: a word that decodes keeps its form, and its fields make up its command's word. -/
theorem encodeOfDecode : Obligations.EncodeOfDecode := by
  unfold Obligations.EncodeOfDecode
  intro w i h
  refine ⟨wf_of_decode h, ?_⟩
  obtain ⟨o, hop, hfit, rfl⟩ := fieldsFit_of_decode h
  exact encode_instr_of_fieldsFit hop hfit

end Sys2Proof.Machine
end

section
/-! PROOFS. Byte spaces (`00_scope.md` R10), and the message words and schedules of MD5, SHA-256 and SHA-512
(`40_compression.md` sections 2, 4 and 5). -/

namespace Sys2Proof.Machine

/-! ## Byte spaces -/

/-- Settles O23: what was written is read, and nothing else is written. -/
theorem byteSpaceReadAfterWrite : Obligations.ByteSpaceReadAfterWrite := by
  unfold Obligations.ByteSpaceReadAfterWrite
  exact fun m addr v h => ⟨memRead_memWrite (Nat.le_of_add_right_le h), memWrite_length h,
    fun a => byteAt_memWrite_of_outside h⟩

/-! ## SHA-2 schedules -/

theorem wordsBE64_getD (blk : List Byte) {t : Nat} (ht : t < 16) : (wordsBE64 blk).getD t 0#64 = be64 blk (8 * t) := by
  simp [wordsBE64, ht]

/-- The word that follows the first `t` words of a SHA-256 schedule, in terms of the whole schedule (R120). -/
theorem sha256Next_take (W : List Word32) {t : Nat} (h16 : 16 ≤ t) (ht : t ≤ W.length) :
    sha256Next (W.take t) = sha256Sigma1 (W.getD (t - 2) 0#32) + W.getD (t - 7) 0#32 +
      sha256Sigma0 (W.getD (t - 15) 0#32) + W.getD (t - 16) 0#32 := by
  have hback (k : Nat) (hk : 0 < k) (hk16 : k ≤ 16) : back (W.take t) k = W.getD (t - k) 0#32 :=
    back_take W hk (hk16.trans h16) ht
  rw [sha256Next, hback 2, hback 7, hback 15, hback 16] <;> decide

/-- The word that follows the first `t` words of a SHA-512 schedule, in terms of the whole schedule (R128). -/
theorem sha512Next_take (W : List Word64) {t : Nat} (h16 : 16 ≤ t) (ht : t ≤ W.length) :
    sha512Next (W.take t) = sha512Sigma1 (W.getD (t - 2) 0#64) + W.getD (t - 7) 0#64 +
      sha512Sigma0 (W.getD (t - 15) 0#64) + W.getD (t - 16) 0#64 := by
  have hback (k : Nat) (hk : 0 < k) (hk16 : k ≤ 16) : back (W.take t) k = W.getD (t - k) 0#64 :=
    back_take W hk (hk16.trans h16) ht
  rw [sha512Next, hback 2, hback 7, hback 15, hback 16] <;> decide

/-- Settles O27: the schedule extends the sixteen block words by forty-eight, each by `sha256Next`. -/
theorem sha256ScheduleRecurrence : Obligations.Sha256ScheduleRecurrence := by
  unfold Obligations.Sha256ScheduleRecurrence
  intro blk
  obtain ⟨hlen, hblock, hnext⟩ := extendSchedule_spec sha256Next 48 (wordsBE32 blk)
  rw [← sha256Schedule, wordsBE32_length] at hlen hblock hnext
  refine ⟨hlen, fun t ht => ?_, fun t h16 h64 => ?_⟩
  · rw [hblock t ht, wordsBE32_getD blk ht]
  · rw [hnext t h16 h64, sha256Next_take _ h16 (hlen ▸ h64.le)]

/-- Settles O28: the schedule extends the sixteen block words by sixty-four, each by `sha512Next`. -/
theorem sha512ScheduleRecurrence : Obligations.Sha512ScheduleRecurrence := by
  unfold Obligations.Sha512ScheduleRecurrence
  intro blk
  obtain ⟨hlen, hblock, hnext⟩ := extendSchedule_spec sha512Next 64 (wordsBE64 blk)
  rw [← sha512Schedule, wordsBE64_length] at hlen hblock hnext
  refine ⟨hlen, fun t ht => ?_, fun t h16 h80 => ?_⟩
  · rw [hblock t ht, wordsBE64_getD blk ht]
  · rw [hnext t h16 h80, sha512Next_take _ h16 (hlen ▸ h80.le)]

/-! ## MD5 -/

theorem wordsLE32_getD (blk : List Byte) {j : Nat} (hj : j < 16) : (wordsLE32 blk).getD j 0#32 = le32 blk (4 * j) := by
  simp [wordsLE32, hj]

/-- A byte joined to a word above the bits the word has. -/
theorem toNat_or_byte_shiftLeft {x : Word32} (b : Byte) {k : Nat} (hk : k ≤ 24) (hx : x.toNat < 2 ^ k) :
    (x ||| b.setWidth 32 <<< k).toNat = x.toNat + 2 ^ k * b.toNat := by
  have hb : b.toNat * 2 ^ k < 2 ^ 32 := calc
    b.toNat * 2 ^ k < 2 ^ 8 * 2 ^ k := Nat.mul_lt_mul_of_pos_right b.isLt (Nat.two_pow_pos k)
    _ ≤ 2 ^ 8 * 2 ^ 24 := Nat.mul_le_mul_left _ (Nat.pow_le_pow_right (by decide) hk)
  rw [BitVec.toNat_or, BitVec.toNat_shiftLeft, BitVec.toNat_setWidth, Nat.mod_eq_of_lt (b.isLt.trans (by decide)),
    Nat.shiftLeft_eq, Nat.mod_eq_of_lt hb, ← Nat.shiftLeft_eq, Nat.or_comm, ← Nat.shiftLeft_add_eq_or_of_lt hx,
    Nat.shiftLeft_eq, Nat.add_comm, Nat.mul_comm]

/-- A little-endian word is its four bytes, each worth 256 times the one before (R9). -/
theorem le32_toNat (s : List Byte) (j : Nat) :
    (le32 s j).toNat = (byteAt s j).toNat + 256 * (byteAt s (j + 1)).toNat + 256 ^ 2 * (byteAt s (j + 2)).toNat +
      256 ^ 3 * (byteAt s (j + 3)).toNat := by
  have h0 := (byteAt s j).isLt
  have h1 := (byteAt s (j + 1)).isLt
  have h2 := (byteAt s (j + 2)).isLt
  have e0 : ((byteAt s j).setWidth 32).toNat = (byteAt s j).toNat := by
    rw [BitVec.toNat_setWidth, Nat.mod_eq_of_lt (h0.trans (by decide))]
  have e1 := toNat_or_byte_shiftLeft (x := (byteAt s j).setWidth 32) (byteAt s (j + 1)) (k := 8) (by decide) (by omega)
  have e2 := toNat_or_byte_shiftLeft (byteAt s (j + 2)) (k := 16) (by decide) (by rw [e1]; omega)
  have e3 := toNat_or_byte_shiftLeft (byteAt s (j + 3)) (k := 24) (by decide) (by rw [e2, e1]; omega)
  rw [le32, e3, e2, e1, e0]
  omega

/-- The word each step adds, by formula and by list (R107). -/
theorem md5WordIndex_eq : ∀ i < 64, md5WordIndex i = md5WordOrder.getD i 0 := by decide

/-- Settles O55: the index formulas give the list of R107, and the rest of a step, with its mixing function and its
rotation, is what the definition says. -/
theorem md5MessageWords : Obligations.Md5MessageWords := by
  unfold Obligations.Md5MessageWords
  refine fun blk => ⟨wordsLE32_length blk, fun j hj => ?_, fun r i hi => ?_, fun h => ?_⟩
  · rw [wordsLE32_getD blk hj, le32_toNat]
  · rw [← md5WordIndex_eq i hi]
    rfl
  · simp only [compress, compressMd5]
    rfl

end Sys2Proof.Machine
end

section
/-! PROOFS. The streaming, padding and finalization engine (`41_streaming.md` sections 2 to 4), in closed form: an
instance is a chaining value and a partial block (`Instance.view`), absorbing feeds bytes to it, and feeding cuts into
whole blocks and a tail. -/

namespace Sys2Proof.Machine

/-! ## Instances that agree but for stale bytes -/

/-- Agreement on all but the stale bytes, in terms of the view. -/
theorem sameMessage_iff {x y : Instance} (hx : x.Ready) (hy : y.Ready) :
    sameMessage x y ↔ x.view = y.view ∧ x.LEN = y.LEN ∧ x.PHASE = y.PHASE := by
  constructor
  · rintro ⟨hH, -, hLEN, hPHASE, htail⟩
    exact ⟨Prod.ext hH htail, hLEN, hPHASE⟩
  · rintro ⟨hv, hLEN, hPHASE⟩
    have hocc : x.OCC = y.OCC := by rw [OCC_eq_of_view hx, OCC_eq_of_view hy, hv]
    exact ⟨congrArg Prod.fst hv, hocc, hLEN, hPHASE, congrArg Prod.snd hv⟩

theorem ALG_eq_of_view {x y : Instance} (h : x.view = y.view) : x.ALG = y.ALG :=
  congrArg (fun v => v.1.alg) h

/-! ## Absorbing -/

/-- The byte-by-byte procedure feeds the bytes (R153). -/
theorem absorbBytewise_spec (x : Instance) (s : List Byte) (h : x.Wf) :
    (absorbBytewise x s).view = feed x.ALG.B x.view s ∧ (absorbBytewise x s).Wf ∧
      (absorbBytewise x s).LEN = x.LEN + BitVec.ofNat 64 s.length ∧ (absorbBytewise x s).PHASE = x.PHASE := by
  induction s generalizing x with
  | nil => exact ⟨rfl, h, (BitVec.add_zero x.LEN).symm, rfl⟩
  | cons b s ih =>
    obtain ⟨hv, hwf, hA, hLEN, hPHASE⟩ := absorbByte_spec x b h
    obtain ⟨ihv, ihwf, ihLEN, ihPHASE⟩ := ih (absorbByte x b) hwf
    refine ⟨?_, ihwf, ?_, ihPHASE.trans hPHASE⟩
    · rw [hv, hA] at ihv
      exact ihv
    · rw [hLEN, BitVec.add_assoc, BitVec.add_comm 1#64, ← BitVec.ofNat_add] at ihLEN
      exact ihLEN

/-- Settles O30: both procedures feed the same bytes to the same view. -/
theorem absorbIsBytewise : Obligations.AbsorbIsBytewise := by
  unfold Obligations.AbsorbIsBytewise
  intro x s h
  obtain ⟨hv, hready, hLEN, hPHASE⟩ := absorb_spec x s h.ready
  obtain ⟨hv', hwf', hLEN', hPHASE'⟩ := absorbBytewise_spec x s h
  exact ⟨(sameMessage_iff hready hwf'.ready).mpr ⟨hv.trans hv'.symm, hLEN.trans hLEN'.symm, hPHASE.trans hPHASE'.symm⟩,
    hready.1⟩

/-- Settles O32: feeding a partial block cuts it and the input into whole blocks and a tail (`feed_eq`). -/
theorem absorbHashesWholeBlocks : Obligations.AbsorbHashesWholeBlocks := by
  unfold Obligations.AbsorbHashesWholeBlocks
  intro x s h
  dsimp only
  obtain ⟨hv, hready, -, hPHASE⟩ := absorb_spec x s h.ready
  have htail : x.tail.length = x.OCC := h.ready.tail_length
  have hlt : x.tail.length < x.ALG.B := htail ▸ h.2
  have hcut := feed_eq x.H x.tail s hlt
  rw [List.length_append, htail] at hcut
  have hocc : (absorb x s).OCC = (x.OCC + s.length) % x.ALG.B := by
    rw [OCC_eq_of_view hready, hv, Instance.view, feed_length _ _ _ hlt, List.length_append, htail]
  rw [Instance.view, Instance.view, hcut] at hv
  exact ⟨congrArg Prod.fst hv, hocc, congrArg Prod.snd hv, absorb_ALG x s h.ready, hPHASE⟩

/-- Absorbing pieces in turn is feeding them in a row. -/
theorem foldl_absorb_spec (x : Instance) (pieces : List (List Byte)) (h : x.Ready) :
    (pieces.foldl absorb x).view = feed x.ALG.B x.view pieces.flatten ∧ (pieces.foldl absorb x).Ready ∧
      (pieces.foldl absorb x).LEN = x.LEN + BitVec.ofNat 64 pieces.flatten.length ∧
      (pieces.foldl absorb x).PHASE = x.PHASE := by
  induction pieces generalizing x with
  | nil => exact ⟨rfl, h, (BitVec.add_zero x.LEN).symm, rfl⟩
  | cons s pieces ih =>
    obtain ⟨hv, hready, hLEN, hPHASE⟩ := absorb_spec x s h
    obtain ⟨ihv, ihready, ihLEN, ihPHASE⟩ := ih (absorb x s) hready
    refine ⟨?_, ihready, ?_, ihPHASE.trans hPHASE⟩
    · rw [List.foldl_cons, ihv, absorb_ALG x s h, hv, List.flatten_cons, feed_append]
    · rw [List.foldl_cons, ihLEN, hLEN, List.flatten_cons, List.length_append, BitVec.ofNat_add, BitVec.add_assoc]

/-- The instance after pieces absorbed from a fresh start, as one run over all their bytes. -/
theorem foldl_absorb_init (x : Instance) (alg : Alg) (pieces : List (List Byte)) :
    (pieces.foldl absorb (initInstance x alg)).view = feed alg.B (iv alg, []) pieces.flatten ∧
      (pieces.foldl absorb (initInstance x alg)).Ready ∧
      (pieces.foldl absorb (initInstance x alg)).LEN = BitVec.ofNat 64 pieces.flatten.length ∧
      (pieces.foldl absorb (initInstance x alg)).PHASE = .absorb := by
  obtain ⟨hv, hready, hLEN, hPHASE⟩ := foldl_absorb_spec (initInstance x alg) pieces (initInstance_ready x alg)
  have hA : (initInstance x alg).ALG = alg := iv_alg alg
  rw [initInstance_view, hA] at hv
  exact ⟨hv, hready, hLEN.trans (BitVec.zero_add _), hPHASE⟩

/-- Settles O31: the view of the bytes delivered, cut into whole blocks and a tail. -/
theorem chainingValueOfDeliveredBytes : Obligations.ChainingValueOfDeliveredBytes := by
  unfold Obligations.ChainingValueOfDeliveredBytes
  intro x alg pieces
  dsimp only
  obtain ⟨hv, hready, hLEN, hPHASE⟩ := foldl_absorb_init x alg pieces
  have hB : ([] : List Byte).length < alg.B := Alg.B_pos alg
  have hocc : (pieces.foldl absorb (initInstance x alg)).OCC = pieces.flatten.length % alg.B := by
    rw [OCC_eq_of_view hready, hv, feed_length _ _ _ hB, List.nil_append]
  rw [feed_eq _ _ _ hB, List.nil_append] at hv
  have hH := congrArg Prod.fst hv
  refine ⟨?_, hH, hocc, congrArg Prod.snd hv, hLEN, hPHASE⟩
  exact (congrArg Chain.alg hH).trans (by rw [chainAfter_alg, iv_alg])

/-- Settles O33: absorbing and finalizing read the view and the length counter alone. -/
theorem noStaleByteIsRead : Obligations.NoStaleByteIsRead := by
  unfold Obligations.NoStaleByteIsRead
  intro x y hx hy hsame
  have hx := hx.ready
  have hy := hy.ready
  obtain ⟨hv, hLEN, hPHASE⟩ := (sameMessage_iff hx hy).mp hsame
  have hA := ALG_eq_of_view hv
  refine ⟨fun s => ?_, ?_, ?_⟩
  · obtain ⟨hvx, hrx, hlx, hpx⟩ := absorb_spec x s hx
    obtain ⟨hvy, hry, hly, hpy⟩ := absorb_spec y s hy
    refine (sameMessage_iff hrx hry).mpr ⟨?_, ?_, ?_⟩
    · rw [hvx, hvy, hA, hv]
    · rw [hlx, hly, hLEN]
    · rw [hpx, hpy, hPHASE]
  · exact (finalize_congr hx hy hv hLEN).1
  · obtain ⟨-, -, hox, hlx, hpx, -⟩ := finalize_spec x hx
    obtain ⟨-, -, hoy, hly, hpy, -⟩ := finalize_spec y hy
    refine ⟨(finalize_congr hx hy hv hLEN).2, hox.trans hoy.symm, ?_, hpx.trans hpy.symm, ?_⟩
    · rw [hlx, hly, hLEN]
    · rw [hox, hoy, List.take_zero, List.take_zero]

/-! ## Finalizing -/

/-- Bytes that fill a partial block are one compression. -/
theorem feed_eq_one {B : Nat} (H : Chain) (c s : List Byte) (hc : c.length < B) (h : (c ++ s).length = B) :
    feed B (H, c) s = (compress H (c ++ s), []) := by
  have hB : 0 < B := Nat.zero_lt_of_lt hc
  rw [feed_eq _ _ _ hc, h, Nat.div_self hB, chainAfter_succ, chainAfter_zero, Nat.one_mul, ← h, List.take_length,
    List.drop_length]

theorem Alg.LF_pos (alg : Alg) : 0 < alg.LF := by cases alg <;> decide

/-- The padding where tail, marker and length field fit in one block (R162). -/
theorem paddingOf_one {alg : Alg} {occ : Nat} (h : occ ≤ alg.B - alg.LF - 1) (len : Word64) :
    paddingOf alg occ len = [0x80#8] ++ zeros (alg.B - alg.LF - 1 - occ) ++ lenField alg len := by
  have hLF := Alg.LF_pos alg
  have hlt := Alg.LF_lt_B alg
  rw [paddingOf, if_neg (by omega), zerosNeeded, if_pos (by omega)]
  congr 3
  omega

/-- The padding where they do not: it runs over the block boundary (R162). -/
theorem paddingOf_two {alg : Alg} {occ : Nat} (h : alg.B - alg.LF ≤ occ) (hocc : occ < alg.B) (len : Word64) :
    paddingOf alg occ len =
      ([0x80#8] ++ zeros (alg.B - 1 - occ)) ++ (zeros (alg.B - alg.LF) ++ lenField alg len) := by
  have hneeded : zerosNeeded alg.B (if occ + 1 = alg.B then 0 else occ + 1) (alg.B - alg.LF) =
      (alg.B - 1 - occ) + (alg.B - alg.LF) := by
    unfold zerosNeeded
    split_ifs <;> omega
  rw [paddingOf, hneeded, zeros_add]
  simp only [List.append_assoc]

/-- Settles O34: the padding fed to the tail fills one block or two. -/
theorem finalizeOneOrTwoBlocks : Obligations.FinalizeOneOrTwoBlocks := by
  unfold Obligations.FinalizeOneOrTwoBlocks
  intro x h
  dsimp only
  obtain ⟨hpad, hout, hocc, hLEN, hPHASE, hA, -⟩ := finalize_spec x h.ready
  have hlt := Alg.LF_lt_B x.ALG
  have hLF := Alg.LF_pos x.ALG
  have htail : x.tail.length = x.OCC := h.ready.tail_length
  have hocclt : x.OCC < x.ALG.B := h.2
  refine ⟨hocc, hLEN, hPHASE, hA, hout, fun hone => ?_, fun htwo => ?_⟩
  · rw [paddingOf_one hone, Instance.view, feed_eq_one _ _ _ (htail ▸ hocclt) (by simp [htail]; omega)] at hpad
    simpa only [Instance.tail, List.append_assoc] using congrArg Prod.fst hpad
  · have hfirst := feed_eq_one x.H x.tail ([0x80#8] ++ zeros (x.ALG.B - 1 - x.OCC)) (htail ▸ hocclt)
      (by simp [htail]; omega)
    rw [paddingOf_two htwo hocclt, feed_append, Instance.view, hfirst,
      feed_eq_one _ _ _ (Alg.B_pos _) (by simp; omega)] at hpad
    simpa only [Instance.tail, List.append_assoc, List.nil_append] using congrArg Prod.fst hpad

/-! ## Whole messages -/

/-- Settles O36: the pieces and the whole message leave the same view and the same length counter. -/
theorem chunkInvariance : Obligations.ChunkInvariance := by
  unfold Obligations.ChunkInvariance
  intro x alg pieces
  obtain ⟨hv, hready, hLEN, -⟩ := foldl_absorb_init x alg pieces
  obtain ⟨hv', hready', hLEN', -⟩ := foldl_absorb_init (freshInstance alg) alg [pieces.flatten]
  rw [List.flatten_singleton] at hv' hLEN'
  exact (finalize_congr hready hready' (hv.trans hv'.symm) (hLEN.trans hLEN'.symm)).1

/-- The number of zeros in the padding of a message (R163). -/
def paddingZeros (alg : Alg) (n : Nat) : Nat :=
  zerosNeeded alg.B (if n % alg.B + 1 = alg.B then 0 else n % alg.B + 1) (alg.B - alg.LF)

/-- A digest is the serialized chaining value of the message and its padding, fed from the initial value. -/
theorem digest_eq_feed (alg : Alg) (s : List Byte) :
    ∃ H, digest alg s = serialize H ∧
      (H, []) = feed alg.B (iv alg, []) (paddedMessage alg s (paddingZeros alg s.length)) := by
  obtain ⟨hv, hready, hLEN, -⟩ := foldl_absorb_init (freshInstance alg) alg [s]
  rw [List.flatten_singleton] at hv hLEN
  generalize hx : [s].foldl absorb (initInstance (freshInstance alg) alg) = x at hv hready hLEN
  have hdigest : digest alg s = (finalize x).1 := by rw [← hx]; rfl
  have hA : x.ALG = alg := by
    have := congrArg (fun v => v.1.alg) hv
    rw [feed_alg] at this
    exact this.trans (iv_alg alg)
  have hocc : x.OCC = s.length % alg.B := by
    rw [OCC_eq_of_view hready, hv, feed_length _ _ _ (Alg.B_pos alg), List.nil_append]
  obtain ⟨hpad, hout, -⟩ := finalize_spec x hready
  refine ⟨(finalize x).2.H, hdigest.trans hout, ?_⟩
  rw [hpad, hA, hv, hocc, hLEN, ← feed_append]
  simp only [paddedMessage, paddingOf, paddingZeros, List.append_assoc]

/-- The zeros reach the length field of this block, or of the next one where it does not fit in this one (R162). -/
theorem paddingZeros_eq (alg : Alg) (n : Nat) :
    paddingZeros alg n =
      if n % alg.B + 1 + alg.LF ≤ alg.B then alg.B - alg.LF - 1 - n % alg.B
      else alg.B + alg.B - alg.LF - 1 - n % alg.B := by
  have hLF := Alg.LF_pos alg
  have hlt := Alg.LF_lt_B alg
  have hmod := Nat.mod_lt n (Alg.B_pos alg)
  unfold paddingZeros zerosNeeded
  split_ifs <;> omega

theorem paddingZeros_lt (alg : Alg) (n : Nat) : paddingZeros alg n < alg.B := by
  have hLF := Alg.LF_pos alg
  have hlt := Alg.LF_lt_B alg
  rw [paddingZeros_eq]
  split <;> omega

/-- The padded message has as many blocks as the message, the marker and the length field need (R262). -/
theorem paddedMessage_length (alg : Alg) (s : List Byte) :
    (paddedMessage alg s (paddingZeros alg s.length)).length =
      alg.B * ((s.length + 1 + alg.LF + (alg.B - 1)) / alg.B) := by
  simp only [paddedMessage, List.length_append, List.length_singleton, zeros_length, lenField_length, paddingZeros_eq]
  generalize s.length = n
  by_cases h : n % alg.B + 1 + alg.LF ≤ alg.B
  · rw [if_pos h]
    cases alg <;> simp only [Alg.B, Alg.LF] at h ⊢ <;> omega
  · rw [if_neg h]
    cases alg <;> simp only [Alg.B, Alg.LF] at h ⊢ <;> omega

/-- Settles O35: the message with its padding is whole blocks, so that feeding it is hashing them. -/
theorem digestClosedForm : Obligations.DigestClosedForm := by
  unfold Obligations.DigestClosedForm
  intro alg s
  have hlen := paddedMessage_length alg s
  refine ⟨paddingZeros alg s.length, paddingZeros_lt alg s.length, hlen, ?_⟩
  obtain ⟨H, hdigest, hfeed⟩ := digest_eq_feed alg s
  rw [feed_eq _ _ _ (Alg.B_pos alg), List.nil_append, hlen, Nat.mul_div_cancel_left _ (Alg.B_pos alg)] at hfeed
  have hH := congrArg Prod.fst hfeed
  dsimp only at hH
  rw [hdigest, hH]

end Sys2Proof.Machine
end

section
/-! PROOFS. The frame of every command (`42_commands.md` sections 2 to 5): a command is refused for want of a key, or
waits for its payload, or runs, and what it leaves unchanged is said once for each of the three. -/

namespace Sys2Proof.Machine

/-- All that can become of a command: an HSIGN with no key is refused, a command short of payload waits, any other
runs. -/
theorem exec_cases {i : Instr} {s t : State} (h : exec i s = .next t) :
    (i.op = .hsign ∧ s.KVALID = false ∧ refuseCommand .nokey i.count s = .next t) ∨
    ((i.op = .hsign → s.KVALID = true) ∧ s.din.length < i.count ∧ t = s.setActivity (.running i)) ∨
    ((i.op = .hsign → s.KVALID = true) ∧ i.count ≤ s.din.length) := by
  by_cases hk : i.op = .hsign → s.KVALID = true
  · rcases Nat.lt_or_ge s.din.length i.count with hc | hc
    · rw [exec_of_lt hc hk] at h
      exact .inr (.inl ⟨hk, hc, (Host.Outcome.next.inj h).symm⟩)
    · exact .inr (.inr ⟨hk, hc⟩)
  · obtain ⟨hop, hk⟩ := Classical.not_imp.mp hk
    have hk : s.KVALID = false := by simpa using hk
    exact .inl ⟨hop, hk, exec_nokey hop hk ▸ h⟩

/-- What a command that runs leaves unchanged of `D`, the scratch instances and the streams. -/
structure RunFrame (i : Instr) (s t : State) : Prop where
  D : i.op ≠ .init → i.op ≠ .reset → i.op ≠ .update → i.op ≠ .result → t.D = s.D
  I : i.op ≠ .digest → i.op ≠ .hkey → i.op ≠ .hsign → t.I = s.I
  O : i.op ≠ .hsign → t.O = s.O
  silent : i.op ≠ .result → i.op ≠ .digest → i.op ≠ .hsign → sameOutput s t ∧ t.activity = .idle
  output : ∃ out, t.output = s.output ++ out
  host : sameHost s t
  din : t.din = s.din.drop i.count

/-- Where the output side is unchanged no byte was written, and none taken back. -/
theorem exists_output_of_sameOutput {s t : State} (h : sameOutput s t) : ∃ out, t.output = s.output ++ out := by
  obtain ⟨hdout, htaken, -⟩ := h
  exact ⟨[], by rw [State.output, State.output, hdout, htaken, List.append_nil]⟩

/-- A command whose payload is there, and its key if it needs one, runs in its frame. -/
theorem exec_runs {i : Instr} {s : State} (hk : i.op = .hsign → s.KVALID = true) (hc : i.count ≤ s.din.length) :
    ∃ t, exec i s = .next t ∧ RunFrame i s t := by
  cases i with
  | init alg =>
    exact ⟨_, exec_init alg s, fun h => absurd rfl h, fun _ _ _ => rfl, fun _ => rfl,
      fun _ _ _ => ⟨⟨rfl, rfl, rfl⟩, rfl⟩, exists_output_of_sameOutput ⟨rfl, rfl, rfl⟩, ⟨rfl, rfl, rfl, rfl⟩, rfl⟩
  | reset =>
    exact ⟨_, exec_reset s, fun _ h => absurd rfl h, fun _ _ _ => rfl, fun _ => rfl,
      fun _ _ _ => ⟨⟨rfl, rfl, rfl⟩, rfl⟩, exists_output_of_sameOutput ⟨rfl, rfl, rfl⟩, ⟨rfl, rfl, rfl, rfl⟩, rfl⟩
  | update count =>
    obtain ⟨x, d, hupd⟩ := updateD_cases (s.din.take count) (s.dropInput count)
    refine ⟨_, exec_update_of_le hc, ?_⟩
    rw [hupd]
    exact ⟨fun _ _ h => absurd rfl h, fun _ _ _ => rfl, fun _ => rfl,
      fun _ _ _ => ⟨⟨rfl, rfl, rfl⟩, rfl⟩, exists_output_of_sameOutput ⟨rfl, rfl, rfl⟩, ⟨rfl, rfl, rfl, rfl⟩, rfl⟩
  | result =>
    cases hph : s.D.PHASE with
    | absorb =>
      exact ⟨_, exec_result_absorb hph, fun _ _ _ h => absurd rfl h, fun _ _ _ => rfl, fun _ => rfl,
        fun h => absurd rfl h, ⟨_, emit_output ..⟩, ⟨rfl, rfl, rfl, rfl⟩, rfl⟩
    | final =>
      exact ⟨_, exec_result_final hph, fun _ _ _ h => absurd rfl h, fun _ _ _ => rfl, fun _ => rfl,
        fun h => absurd rfl h, ⟨_, emit_output ..⟩, ⟨rfl, rfl, rfl, rfl⟩, rfl⟩
  | digest alg count =>
    exact ⟨_, exec_digest_of_le hc, fun _ _ _ _ => rfl, fun h => absurd rfl h, fun _ => rfl,
      fun _ h => absurd rfl h, ⟨_, emit_output ..⟩, ⟨rfl, rfl, rfl, rfl⟩, rfl⟩
  | hkey alg count =>
    exact ⟨_, exec_hkey_of_le hc, fun _ _ _ _ => rfl, fun _ h => absurd rfl h, fun _ => rfl,
      fun _ _ _ => ⟨⟨rfl, rfl, rfl⟩, rfl⟩, exists_output_of_sameOutput ⟨rfl, rfl, rfl⟩, ⟨rfl, rfl, rfl, rfl⟩, rfl⟩
  | hsign count =>
    exact ⟨_, exec_hsign_of_le (hk rfl) hc, fun _ _ _ _ => rfl, fun _ _ h => absurd rfl h, fun h => absurd rfl h,
      fun _ _ h => absurd rfl h, ⟨_, emit_output ..⟩, ⟨rfl, rfl, rfl, rfl⟩, rfl⟩
  | clrerr =>
    exact ⟨_, exec_clrerr s, fun _ _ _ _ => rfl, fun _ _ _ => rfl, fun _ => rfl,
      fun _ _ _ => ⟨⟨rfl, rfl, rfl⟩, rfl⟩, exists_output_of_sameOutput ⟨rfl, rfl, rfl⟩, ⟨rfl, rfl, rfl, rfl⟩, rfl⟩

/-- What a refused command leaves unchanged, whether it waits or discards its payload (`60_exceptions.md` R226). -/
theorem refuseCommand_frame {e : CmdError} {count : Nat} {s t : State} (h : refuseCommand e count s = .next t) :
    t.D = s.D ∧ sameScratch s t ∧ sameOutput s t ∧ sameHost s t ∧ (t.din = s.din.drop count ∨ t.din = s.din) := by
  obtain ⟨-, rfl⟩ | ⟨-, rfl⟩ := refuseCommand_cases h
  · exact ⟨rfl, ⟨rfl, rfl⟩, ⟨rfl, rfl, rfl⟩, ⟨rfl, rfl, rfl, rfl⟩, .inr rfl⟩
  · simp [sameScratch, sameOutput, sameHost]

/-- No command but CLRERR, and an HSIGN refused for want of a key, writes the error record. -/
theorem exec_sameError {i : Instr} {s t : State} (h : exec i s = .next t) (hi : i.op ≠ .clrerr)
    (hk : i.op = .hsign → s.KVALID = true) : sameError s t := by
  obtain ⟨hop, hnokey, -⟩ | ⟨-, -, rfl⟩ | ⟨-, hc⟩ := exec_cases h
  · simp [hk hop] at hnokey
  · exact ⟨rfl, rfl⟩
  · obtain ⟨u, hu, herr, -⟩ := exec_frames_of_le hc hk
    obtain rfl : u = t := Host.Outcome.next.inj (hu.symm.trans h)
    exact herr fun hclr => hi (hclr ▸ rfl)

/-- Settles O51: the frame of the command in each of the three cases of `exec_cases`. -/
theorem commandFrames : Obligations.CommandFrames := by
  unfold Obligations.CommandFrames
  intro i s t h
  obtain ⟨hop, -, href⟩ | ⟨-, -, rfl⟩ | ⟨hk, hc⟩ := exec_cases h
  · obtain ⟨hD, ⟨hI, hO⟩, hout, hhost, hdin⟩ := refuseCommand_frame href
    exact ⟨fun _ _ _ _ => hD, exec_sameKey h, fun _ _ _ => hI, fun _ => hO, exec_sameError h, fun _ _ _ => hout,
      exists_output_of_sameOutput hout, hhost, hdin⟩
  · exact ⟨fun _ _ _ _ => rfl, exec_sameKey h, fun _ _ _ => rfl, fun _ => rfl, exec_sameError h,
      fun _ _ _ => ⟨rfl, rfl, rfl⟩, exists_output_of_sameOutput ⟨rfl, rfl, rfl⟩, ⟨rfl, rfl, rfl, rfl⟩, .inr rfl⟩
  · obtain ⟨u, hu, hframe⟩ := exec_runs hk hc
    obtain rfl : u = t := Host.Outcome.next.inj (hu.symm.trans h)
    exact ⟨hframe.D, exec_sameKey h, hframe.I, hframe.O, exec_sameError h, fun h1 h2 h3 => (hframe.silent h1 h2 h3).1,
      hframe.output, hframe.host, .inl hframe.din⟩

end Sys2Proof.Machine
end

section
/-! PROOFS. The invariant of the machine holds at reset and every step keeps it (`10_state.md` sections 3 to 5,
`60_exceptions.md` R227, `70_reset_and_hazards.md` R250). A command is made of named updates, each of which keeps
`State.Steady`, and ends by completing, by writing output or by waiting, each of which gives back `State.Inv`. -/

namespace Sys2Proof.Machine

/-! ## The invariant inside a command -/

/-- What the invariant says of a block out of reset with no output pending, whatever command is in progress. -/
structure State.Steady (s : State) : Prop where
  D : s.D.Wf
  I : s.I.Wf
  O : s.O.Wf
  key : s.KeyWf
  error : s.ErrorWf
  rst : s.rst = false
  dout : s.dout = []

theorem State.Inv.steady {s : State} (h : s.Inv) (hrst : s.rst = false) (hdout : s.dout = []) : s.Steady :=
  ⟨h.D, h.I, h.O, h.key, h.error, hrst, hdout⟩

theorem State.heldInReset_of_released {s : State} (h : s.rst = false) : s.HeldInReset := by
  intro hrst
  simp [h] at hrst

namespace State.Steady

variable {s : State}

theorem setD {x : Instance} (h : s.Steady) (hx : x.Wf) : (s.setD x).Steady :=
  ⟨hx, h.I, h.O, h.key, h.error, h.rst, h.dout⟩

theorem setI {x : Instance} (h : s.Steady) (hx : x.Wf) : (s.setI x).Steady :=
  ⟨h.D, hx, h.O, h.key, h.error, h.rst, h.dout⟩

theorem setO {x : Instance} (h : s.Steady) (hx : x.Wf) : (s.setO x).Steady :=
  ⟨h.D, h.I, hx, h.key, h.error, h.rst, h.dout⟩

theorem drawn (k : Nat) (h : s.Steady) : (s.drawn k).Steady :=
  ⟨h.D, h.I, h.O, h.key, h.error, h.rst, h.dout⟩

theorem dropInput (n : Nat) (h : s.Steady) : (s.dropInput n).Steady :=
  ⟨h.D, h.I, h.O, h.key, h.error, h.rst, h.dout⟩

theorem setError {err : Bool} {code : BitVec 2} (h : s.Steady) (hcode : err = true ↔ code ≠ 0b00#2) :
    (s.setError err code).Steady :=
  ⟨h.D, h.I, h.O, h.key, hcode, h.rst, h.dout⟩

theorem recordError (e : CmdError) (h : s.Steady) : (recordError e s).Steady := by
  cases hs : s.ERR with
  | true => rwa [recordError_of_set e s hs]
  | false =>
    rw [recordError_of_clear e s hs]
    exact h.setError (by cases e <;> decide)

/-- The key that HKEY stores is a padded block with zeros above it (R187, R30). -/
theorem setKey {alg : Alg} {k : List Byte} (h : s.Steady) (hk : k.length = alg.B) :
    (s.setKey (keyRegister alg k s.K) alg).Steady := by
  have hB := Alg.B_le alg
  have hpad : (xorBytes k innerPad).length = alg.B := by rw [xorBytes_length, hk]
  refine ⟨h.D, h.I, h.O, ⟨?_, fun a ha => ?_, fun hv => absurd hv (by simp)⟩, h.error, h.rst, h.dout⟩
  · rw [setKey_K, keyRegister_eq hk h.key.1, Memory.wf, List.length_append, hpad, zeros_length]
    omega
  · rw [setKey_K, keyRegister_eq hk h.key.1, byteAt_append_right (by rw [hpad]; exact ha), byteAt_zeros]

theorem replaceD {x : Instance} (h : s.Steady) (hx : x.Wf) : (replaceD x s).Steady :=
  (h.setD (forgetStale_wf _ hx.ready)).drawn 1

theorem updateD (p : List Byte) (h : s.Steady) : (updateD p s).Steady := by
  cases hph : s.D.PHASE with
  | absorb =>
    by_cases hp : p.length = 0
    · simpa [Machine.updateD, hph, hp] using h
    · simpa [Machine.updateD, hph, hp] using h.replaceD (absorb_wf s.D p h.D)
  | final => simpa [Machine.updateD, hph] using (h.setD (misused_wf s.draws s.D)).drawn 1

/-! ### The end of a command -/

theorem complete (h : s.Steady) : s.complete.Inv :=
  ⟨h.D, h.I, h.O, h.key, h.error, h.dout, heldInReset_of_released h.rst⟩

theorem running {i : Instr} (h : s.Steady) (hwf : i.wf = true) (hc : s.din.length < i.count)
    (hk : i.op = .hsign → s.KVALID = true) : (s.setActivity (.running i)).Inv :=
  ⟨h.D, h.I, h.O, h.key, h.error, ⟨h.dout, hwf, Nat.zero_lt_of_lt hc, hk⟩, heldInReset_of_released h.rst⟩

theorem discarding {e : CmdError} {count : Nat} (h : s.Steady) (hfit : countFits count = true)
    (hc : s.din.length < count) : (s.setActivity (.discarding e count)).Inv :=
  ⟨h.D, h.I, h.O, h.key, h.error, ⟨h.dout, hfit, Nat.zero_lt_of_lt hc⟩, heldInReset_of_released h.rst⟩

end State.Steady

/-- After draining, output is pending exactly if the command is still draining (R33, R256). -/
theorem drain_activityWf (s : State) : s.drain.ActivityWf := by
  rw [State.ActivityWf, State.drain_activity, State.drain_dout]
  by_cases h : s.dout.length ≤ s.credit
  · rw [if_pos h]
    exact List.drop_of_length_le h
  · rw [if_neg h]
    simpa using h

theorem State.Steady.emit {s : State} (h : s.Steady) (out : List Byte) : (s.emit out).Inv :=
  ⟨h.D, h.I, h.O, h.key, h.error, drain_activityWf _, heldInReset_of_released h.rst⟩

/-! ## Commands -/

theorem initInstance_wf {x : Instance} (alg : Alg) (h : x.Wf) : (initInstance x alg).Wf :=
  ⟨h.1, (initInstance_ready x alg).1⟩

/-- A command that runs keeps the invariant. -/
theorem exec_inv_of_le {i : Instr} {s : State} (h : s.Steady) (hc : i.count ≤ s.din.length)
    (hk : i.op = .hsign → s.KVALID = true) : ∃ t, exec i s = .next t ∧ t.Inv := by
  cases i with
  | init alg => exact ⟨_, exec_init alg s, (h.replaceD (initInstance_wf alg h.D)).complete⟩
  | reset => exact ⟨_, exec_reset s, (h.replaceD (initInstance_wf _ h.D)).complete⟩
  | update count => exact ⟨_, exec_update_of_le hc, ((h.dropInput count).updateD _).complete⟩
  | result =>
    cases hph : s.D.PHASE with
    | absorb => exact ⟨_, exec_result_absorb hph, (h.replaceD (finalize_wf s.D h.D)).emit _⟩
    | final => exact ⟨_, exec_result_final hph, ((h.setD (misused_wf _ _)).drawn 1).emit _⟩
  | digest alg count =>
    exact ⟨_, exec_digest_of_le hc, (((h.dropInput count).setI (unspecifiedInstance_wf _)).drawn 1).emit _⟩
  | hkey alg count =>
    exact ⟨_, exec_hkey_of_le hc, ((((h.dropInput count).setKey (deriveKey_length ..)).setI
      (unspecifiedInstance_wf _)).drawn 1).complete⟩
  | hsign count =>
    exact ⟨_, exec_hsign_of_le (hk rfl) hc, ((((h.dropInput count).setI (unspecifiedInstance_wf _)).setO
      (unspecifiedInstance_wf _)).drawn 2).emit _⟩
  | clrerr => exact ⟨_, exec_clrerr s, (h.setError (by decide)).complete⟩

theorem refuseCommand_inv {e : CmdError} {count : Nat} {s t : State} (h : s.Steady) (hfit : countFits count = true)
    (ht : refuseCommand e count s = .next t) : t.Inv := by
  obtain ⟨hc, rfl⟩ | ⟨-, rfl⟩ := refuseCommand_cases ht
  · exact h.discarding hfit hc
  · exact ((h.dropInput count).recordError e).complete

theorem exec_inv {i : Instr} {s t : State} (h : s.Steady) (hwf : i.wf = true) (ht : exec i s = .next t) : t.Inv := by
  obtain ⟨-, -, href⟩ | ⟨hk, hc, rfl⟩ | ⟨hk, hc⟩ := exec_cases ht
  · exact refuseCommand_inv h (wf_eq_countFits i ▸ hwf) href
  · exact h.running hwf hc hk
  · obtain ⟨u, hu, hinv⟩ := exec_inv_of_le h hc hk
    obtain rfl : u = t := Host.Outcome.next.inj (hu.symm.trans ht)
    exact hinv

theorem executeCommand_inv {w : Word32} {s t : State} (h : s.Steady) (ht : executeCommand w s = .next t) : t.Inv := by
  cases hdec : decode w with
  | ok i => exact exec_inv h (wf_of_decode hdec) (by rwa [executeCommand, hdec] at ht)
  | error e => exact refuseCommand_inv h (decide_eq_true (countField_lt w)) (by rwa [executeCommand, hdec] at ht)

/-! ## The reset state -/

/-- A block in its reset state meets the invariant, whatever the host holds. -/
theorem resetBlock_inv (s : State) : s.resetBlock.Inv where
  D := freshInstance_wf .md5
  I := freshInstance_wf .md5
  O := freshInstance_wf .md5
  key := ⟨zeros_length _, fun a _ => byteAt_zeros _ a, fun _ => ⟨rfl, rfl⟩⟩
  error := by simp [State.ErrorWf, State.resetBlock, State.reset]
  activity := rfl
  held := fun _ => rfl

/-- Settles O14: the state after reset is its own reset state. -/
theorem resetMeetsInvariant : Obligations.ResetMeetsInvariant := by
  unfold Obligations.ResetMeetsInvariant
  exact resetBlock_inv State.reset

/-! ## Moves of the core -/

/-- The invariant reads nothing of the host's own but the level of the reset input. -/
theorem State.Inv.of_frames {s t : State} (h : s.Inv) (hD : t.D = s.D) (hscratch : sameScratch s t) (hkey : sameKey s t)
    (herr : sameError s t) (hact : t.activity = s.activity) (hdout : t.dout = s.dout) (hheld : t.HeldInReset) :
    t.Inv := by
  obtain ⟨hI, hO⟩ := hscratch
  obtain ⟨hK, hKALG, hKVALID⟩ := hkey
  obtain ⟨hERR, hERRCODE⟩ := herr
  refine ⟨hD ▸ h.D, hI ▸ h.I, hO ▸ h.O, ?_, ?_, ?_, hheld⟩
  · rw [KeyWf, hK, hKALG, hKVALID]
    exact h.key
  · rw [ErrorWf, hERR, hERRCODE]
    exact h.error
  · rw [ActivityWf, hact, hdout, hKVALID]
    exact h.activity

theorem State.Inv.drain {s : State} (h : s.Inv) (hrst : s.rst = false) : s.drain.Inv :=
  ⟨h.D, h.I, h.O, h.key, h.error, drain_activityWf s, heldInReset_of_released hrst⟩

/-- What a move of the core can be: it holds its reset state; or it is out of reset and holds its state, runs the next
command word, goes on with a command that waits, or hands on output. -/
theorem coreStep_cases {s t : State} (h : coreStep s = .next t) :
    (s.rst = true ∧ t = s.resetBlock) ∨
    (s.rst = false ∧
      ((s.activity = .idle ∧ s.cmds = [] ∧ t = s) ∨
       (∃ w rest, s.activity = .idle ∧ s.cmds = w :: rest ∧ executeCommand w { s with cmds := rest } = .next t) ∨
       (∃ i, s.activity = .running i ∧ exec i s = .next t) ∨
       (∃ e count, s.activity = .discarding e count ∧ refuseCommand e count s = .next t) ∨
       (s.activity = .draining ∧ t = s.drain))) := by
  cases hrst : s.rst with
  | true => exact .inl ⟨rfl, by simpa [coreStep, hrst] using h.symm⟩
  | false =>
    refine .inr ⟨rfl, ?_⟩
    cases hact : s.activity with
    | idle =>
      cases hcmds : s.cmds with
      | nil =>
        rw [coreStep_of_idle_nil hrst hact hcmds] at h
        exact .inl ⟨rfl, rfl, (Host.Outcome.next.inj h).symm⟩
      | cons w rest => exact .inr (.inl ⟨w, rest, rfl, rfl, by simpa [coreStep, hrst, hact, hcmds] using h⟩)
    | running i => exact .inr (.inr (.inl ⟨i, rfl, by simpa [coreStep, hrst, hact] using h⟩))
    | discarding e count =>
      exact .inr (.inr (.inr (.inl ⟨e, count, rfl, by simpa [coreStep, hrst, hact] using h⟩)))
    | draining =>
      rw [coreStep_of_draining hrst hact] at h
      exact .inr (.inr (.inr (.inr ⟨rfl, (Host.Outcome.next.inj h).symm⟩)))

theorem coreStep_inv {s t : State} (h : s.Inv) (ht : coreStep s = .next t) : t.Inv := by
  have hactivity := h.activity
  obtain ⟨-, rfl⟩ | ⟨hrst, ⟨-, -, rfl⟩ | ⟨w, rest, hact, -, ht⟩ | ⟨i, hact, ht⟩ | ⟨e, count, hact, ht⟩ | ⟨-, rfl⟩⟩ :=
    coreStep_cases ht
  · exact resetBlock_inv s
  · exact h
  · simp only [State.ActivityWf, hact] at hactivity
    have hsteady := h.steady hrst hactivity
    exact executeCommand_inv (s := { s with cmds := rest }) { hsteady with } ht
  · simp only [State.ActivityWf, hact] at hactivity
    obtain ⟨hdout, hwf, -⟩ := hactivity
    exact exec_inv (h.steady hrst hdout) hwf ht
  · simp only [State.ActivityWf, hact] at hactivity
    obtain ⟨hdout, hfit, -⟩ := hactivity
    exact refuseCommand_inv (h.steady hrst hdout) hfit ht
  · exact h.drain hrst

/-! ## Moves of the host -/

/-- A move of the host but a reset leaves a block that is held in reset as it is. -/
theorem hostMove_heldInReset {m : HostMove} (hm : ∀ b, m ≠ .setReset b) {s : State} (h : s.HeldInReset) :
    (hostMove m s).HeldInReset := by
  intro hrst
  cases m with
  | offerCommand w => exact congrArg (fun u : State => { u with cmds := s.cmds ++ [w] }) (h hrst)
  | offerBytes bs => exact h hrst
  | acceptBytes n => exact congrArg (fun u : State => { u with credit := s.credit + n }) (h hrst)
  | readStatus =>
    exact congrArg (fun u : State => { u with sampled := statusSample s, draws := s.draws + 1 }) (h hrst)
  | setReset b => exact absurd rfl (hm b)
  | letCore => exact h hrst

/-- An edge of the reset input, and a reset held, put the block in its reset state (R250, R251). -/
theorem hostMove_setReset (b : Bool) (s : State) :
    hostMove (.setReset b) s = if b || s.rst then { s with rst := b }.resetBlock else s := rfl

theorem hostMove_inv (m : HostMove) {s : State} (h : s.Inv) : (hostMove m s).Inv := by
  by_cases hm : ∀ b, m ≠ .setReset b
  · obtain ⟨hD, hscratch, hkey, herr, hact, hdout, -⟩ := hostMove_frames hm s
    exact h.of_frames hD hscratch hkey herr hact hdout (hostMove_heldInReset hm h.held)
  · obtain ⟨b, rfl⟩ : ∃ b, m = .setReset b := by simpa only [not_forall, not_not] using hm
    rw [hostMove_setReset]
    split
    · exact resetBlock_inv _
    · exact h

/-- The invariant does not read the host's coming moves. -/
theorem State.Inv.setScript {s : State} (h : s.Inv) (script : List HostMove) : { s with script := script }.Inv :=
  h.of_frames rfl ⟨rfl, rfl⟩ ⟨rfl, rfl, rfl⟩ ⟨rfl, rfl⟩ rfl rfl fun hrst =>
    congrArg (fun u : State => { u with script := script }) (h.held hrst)

/-- Settles O15: a step is a move of the core or of the host, and either keeps the invariant. -/
theorem stepKeepsInvariant : Obligations.StepKeepsInvariant := by
  unfold Obligations.StepKeepsInvariant
  intro s t h ht
  obtain hcore | ⟨m, rest, -, rfl⟩ := step_cases ht
  · exact coreStep_inv (h.setScript _) hcore
  · exact hostMove_inv m (h.setScript rest)

end Sys2Proof.Machine
end

section
/-! PROOFS. Steps of the machine (`42_commands.md` R180, `70_reset_and_hazards.md` sections 3 and 4): every step answers
a next state, a busy core accepts no word, a command short of payload is stuck, and one that is fed completes. -/

namespace Sys2Proof.Machine

/-! ## Which move a step is -/

/-- A step is a move of the core where the host lets it move or has no move left. -/
theorem step_of_core {s : State} (h : s.script = [] ∨ s.script.head? = some .letCore) :
    step s = coreStep { s with script := s.script.tail } := by
  rw [step, machineStep]
  split
  case h_1 hscript =>
    cases s
    cases hscript
    rfl
  case h_2 rest hscript => rw [hscript, List.tail_cons]
  case h_3 m rest hm hscript =>
    have hlet : m = .letCore := by simpa [hscript] using h
    exact absurd hlet hm

theorem step_of_nil {s : State} (h : s.script = []) : step s = coreStep s := by
  rw [step, machineStep, h]

/-- A step is the host's next move where that is a move of its own. -/
theorem step_of_hostMove {s : State} {m : HostMove} {rest : List HostMove} (h : s.script = m :: rest)
    (hm : m ≠ .letCore) : step s = .next (hostMove m { s with script := rest }) := by
  rw [step, machineStep, h]
  cases m with
  | letCore => exact absurd rfl hm
  | offerCommand | offerBytes | acceptBytes | readStatus | setReset => rfl

/-- Settles O10: the step is the core's, which accepts the word. -/
theorem stepRunsDecodedCommand : Obligations.StepRunsDecodedCommand := by
  unfold Obligations.StepRunsDecodedCommand
  intro s w rest hscript hrst hidle hcmds
  rw [step_of_nil hscript, coreStep_of_idle hrst hidle hcmds]
  exact ⟨fun i hdec => executeCommand_of_decode hdec _, fun e hdec => by rw [executeCommand, hdec]⟩

/-! ## Every step answers -/

theorem refuseCommand_next (e : CmdError) (count : Nat) (s : State) : ∃ t, refuseCommand e count s = .next t := by
  rcases Nat.lt_or_ge s.din.length count with hc | hc
  · exact ⟨_, refuseCommand_of_lt hc⟩
  · exact ⟨_, refuseCommand_of_le hc⟩

theorem exec_next (i : Instr) (s : State) : ∃ t, exec i s = .next t := by
  by_cases hk : i.op = .hsign → s.KVALID = true
  · rcases Nat.lt_or_ge s.din.length i.count with hc | hc
    · exact ⟨_, exec_of_lt hc hk⟩
    · obtain ⟨t, ht, -⟩ := exec_runs hk hc
      exact ⟨t, ht⟩
  · obtain ⟨hop, hk⟩ := Classical.not_imp.mp hk
    rw [exec_nokey hop (by simpa using hk)]
    exact refuseCommand_next _ _ _

theorem executeCommand_next (w : Word32) (s : State) : ∃ t, executeCommand w s = .next t := by
  rw [executeCommand]
  split
  · exact exec_next _ s
  · exact refuseCommand_next _ _ s

theorem coreStep_next (s : State) : ∃ t, coreStep s = .next t := by
  rw [coreStep]
  split
  · exact ⟨_, rfl⟩
  · split
    · split
      · exact ⟨_, rfl⟩
      · exact executeCommand_next _ _
    · exact exec_next _ s
    · exact refuseCommand_next _ _ s
    · exact ⟨_, rfl⟩

/-- Settles O12: the core's move answers whatever it is doing, and the host's by definition. -/
theorem stepAlwaysAnswersNext : Obligations.StepAlwaysAnswersNext := by
  unfold Obligations.StepAlwaysAnswersNext
  intro s
  rw [step, machineStep]
  split
  · exact coreStep_next s
  · exact coreStep_next _
  · exact ⟨_, rfl⟩

/-! ## Words wait while a command is in progress -/

theorem exec_sameHost {i : Instr} {s t : State} (h : exec i s = .next t) : sameHost s t := by
  obtain ⟨-, -, -, -, -, -, -, hhost, -⟩ := commandFrames i s t h
  exact hhost

theorem refuseCommand_sameHost {e : CmdError} {count : Nat} {s t : State} (h : refuseCommand e count s = .next t) :
    sameHost s t := by
  obtain ⟨-, -, -, hhost, -⟩ := refuseCommand_frame h
  exact hhost

theorem executeCommand_sameHost {w : Word32} {s t : State} (h : executeCommand w s = .next t) : sameHost s t := by
  rw [executeCommand] at h
  split at h
  · exact exec_sameHost h
  · exact refuseCommand_sameHost h

/-- A core with a command in progress accepts no word (R257). -/
theorem coreStep_cmds_of_busy {s t : State} (hbusy : s.activity ≠ .idle) (h : coreStep s = .next t) :
    t.cmds = s.cmds := by
  obtain ⟨-, rfl⟩ | ⟨-, ⟨hact, -, -⟩ | ⟨w, rest, hact, -, -⟩ | ⟨i, -, h⟩ | ⟨e, count, -, h⟩ | ⟨-, rfl⟩⟩ :=
    coreStep_cases h
  · rfl
  · exact absurd hact hbusy
  · exact absurd hact hbusy
  · exact (exec_sameHost h).1
  · exact (refuseCommand_sameHost h).1
  · rfl

/-- No move of the host takes back a word it has offered, nor does a block reset (log entry 8). -/
theorem hostMove_cmds (m : HostMove) (s : State) : ∃ offered, (hostMove m s).cmds = s.cmds ++ offered := by
  cases m with
  | offerCommand w => exact ⟨[w], rfl⟩
  | setReset b =>
    refine ⟨[], ?_⟩
    rw [hostMove_setReset, List.append_nil]
    split <;> rfl
  | offerBytes | acceptBytes | readStatus | letCore => exact ⟨[], (List.append_nil _).symm⟩

/-- Settles O11: a busy core leaves the words offered, and an idle one takes the first and runs it on the rest. -/
theorem commandsWaitWhileBusy : Obligations.CommandsWaitWhileBusy := by
  unfold Obligations.CommandsWaitWhileBusy
  refine ⟨fun s t h hbusy => ?_, fun s t w rest hbusy hrst hcmds => ?_⟩
  · obtain hcore | ⟨m, rest, -, rfl⟩ := step_cases h
    · have hact : s.activity ≠ .idle := by simpa [State.busy] using hbusy
      have hcmds := coreStep_cmds_of_busy (s := { s with script := s.script.tail }) hact hcore
      exact ⟨[], hcmds.trans (List.append_nil _).symm⟩
    · exact hostMove_cmds m { s with script := rest }
  · have hcore := coreStep_of_idle hrst ((busy_eq_false_iff s).mp hbusy) hcmds
    exact ⟨hcore, fun h => (executeCommand_sameHost (hcore ▸ h)).1⟩

/-! ## A command that is fed completes -/

theorem Alg.N_le (alg : Alg) : alg.N ≤ 64 := by cases alg <;> decide

/-- A refused command whose payload is there completes and outputs nothing (`60_exceptions.md` R226). -/
theorem refuseCommand_completes {e : CmdError} {count : Nat} {s : State} (hc : count ≤ s.din.length) :
    ∃ t, refuseCommand e count s = .next t ∧ t.activity = .idle ∧ t.dout = s.dout ∧ t.cmds = s.cmds ∧
      t.din = s.din.drop count :=
  ⟨_, refuseCommand_of_le hc, rfl, by simp, by simp, by simp⟩

/-- A command whose payload is there completes where the host stands ready for its output. -/
theorem exec_completes {i : Instr} {s : State} (hdout : s.dout = []) (hcredit : 64 ≤ s.credit)
    (hc : i.count ≤ s.din.length) :
    ∃ t, exec i s = .next t ∧ t.activity = .idle ∧ t.dout = [] ∧ t.cmds = s.cmds ∧ t.din = s.din.drop i.count := by
  by_cases hk : i.op = .hsign → s.KVALID = true
  · obtain ⟨t, ht, hframe⟩ := exec_runs hk hc
    have hdone : t.activity = .idle ∧ t.dout = [] := by
      by_cases hop : i.op = .result ∨ i.op = .digest ∨ i.op = .hsign
      · obtain ⟨alg, u, out, hemit, hlen, hdout', -, hcredit'⟩ :=
          exec_emits (hop.imp_right (Or.imp_right fun h => ⟨h, hk h⟩)) hc
        obtain rfl : t = u.emit out := Host.Outcome.next.inj (ht.symm.trans hemit)
        have hfits : out.length ≤ u.credit := by
          rw [hlen, hcredit']
          exact (Alg.N_le alg).trans hcredit
        obtain ⟨hact, hempty, -⟩ := emit_of_credit (hdout'.trans hdout) hfits
        exact ⟨hact, hempty⟩
      · simp only [not_or] at hop
        obtain ⟨hres, hdig, hsig⟩ := hop
        obtain ⟨⟨hout, -⟩, hact⟩ := hframe.silent hres hdig hsig
        exact ⟨hact, hout.trans hdout⟩
    obtain ⟨hact, hempty⟩ := hdone
    exact ⟨t, ht, hact, hempty, hframe.host.1, hframe.din⟩
  · obtain ⟨hop, hk⟩ := Classical.not_imp.mp hk
    rw [exec_nokey hop (by simpa using hk), ← hdout]
    exact refuseCommand_completes hc

theorem executeCommand_completes {w : Word32} {s : State} (hdout : s.dout = []) (hcredit : 64 ≤ s.credit)
    (hc : countField w ≤ s.din.length) :
    ∃ t, executeCommand w s = .next t ∧ t.activity = .idle ∧ t.dout = [] ∧ t.cmds = s.cmds ∧
      t.din = s.din.drop (countField w) := by
  cases hdec : decode w with
  | ok i =>
    rw [executeCommand_of_decode hdec, ← count_of_decode hdec]
    exact exec_completes hdout hcredit (count_of_decode hdec ▸ hc)
  | error e =>
    rw [executeCommand, hdec, ← hdout]
    exact refuseCommand_completes hc

/-- Settles O16: the step accepts the word, and its command, refused or not, completes. -/
theorem commandCompletesOnceFed : Obligations.CommandCompletesOnceFed := by
  unfold Obligations.CommandCompletesOnceFed
  intro s w rest hscript hrst hidle hdout hcmds hc hcredit
  rw [step_of_nil hscript, coreStep_of_idle hrst hidle hcmds]
  exact executeCommand_completes (s := { s with cmds := rest }) hdout hcredit hc

/-! ## A command short of payload is stuck -/

/-- UPDATE's effect commutes with a change to the state that it neither reads nor writes. -/
theorem updateD_comm (p : List Byte) (f : State → State) (s : State) (hD : (f s).D = s.D)
    (hdraws : (f s).draws = s.draws)
    (hf : ∀ x d, f { s with D := x, draws := d } = { f s with D := x, draws := d }) :
    updateD p (f s) = f (updateD p s) := by
  cases hph : s.D.PHASE with
  | absorb =>
    by_cases hp : p.length = 0
    · simp only [updateD, hD, hph, if_pos hp]
    · simp only [updateD, hD, hph, if_neg hp, replaceD, hdraws]
      exact (congrArg (fun d => { f s with D := forgetStale s.draws (absorb s.D p), draws := d + 1 }) hdraws).trans
        (hf _ _).symm
  | final =>
    simp only [updateD, hD, hph, hdraws]
    exact (congrArg (fun d => { f s with D := misused s.draws s.D, draws := d + 1 }) hdraws).trans (hf _ _).symm

/-- Recording an error commutes with a change to the state that leaves the error record alone. -/
theorem recordError_comm (e : CmdError) (f : State → State) (s : State) (hERR : (f s).ERR = s.ERR)
    (hf : ∀ err code, f (s.setError err code) = (f s).setError err code) :
    recordError e (f s) = f (recordError e s) := by
  cases hs : s.ERR with
  | true => rw [recordError_of_set e s hs, recordError_of_set e (f s) (hERR.trans hs)]
  | false => rw [recordError_of_clear e s hs, recordError_of_clear e (f s) (hERR.trans hs), hf]

/-- A refused command whose payload is there does not read what the block was doing: it may as well have waited. -/
theorem refuseCommand_setActivity {e : CmdError} {count : Nat} {s : State} (a : Activity) (hc : count ≤ s.din.length) :
    refuseCommand e count (s.setActivity a) = refuseCommand e count s := by
  have hrec := congrArg State.complete
    (recordError_comm e (State.setActivity a) (s.dropInput count) rfl fun _ _ => rfl)
  rw [refuseCommand_of_le hc, refuseCommand_of_le (s := s.setActivity a) hc]
  exact congrArg Host.Outcome.next hrec

/-- A command whose payload is there does not read what the block was doing: it may as well have waited. -/
theorem exec_setActivity {i : Instr} {s : State} (a : Activity) (hc : i.count ≤ s.din.length) :
    exec i (s.setActivity a) = exec i s := by
  cases i with
  | init alg => rfl
  | reset => rfl
  | update count =>
    have hc : count ≤ s.din.length := hc
    rw [exec_update_of_le hc, exec_update_of_le (s := s.setActivity a) hc]
    have hupd := congrArg State.complete
      (updateD_comm (s.din.take count) (State.setActivity a) (s.dropInput count) rfl rfl fun _ _ => rfl)
    exact congrArg Host.Outcome.next hupd
  | result =>
    cases hph : s.D.PHASE with
    | absorb => rw [exec_result_absorb hph, exec_result_absorb (s := s.setActivity a) hph]; rfl
    | final => rw [exec_result_final hph, exec_result_final (s := s.setActivity a) hph]; rfl
  | digest alg count =>
    have hc : count ≤ s.din.length := hc
    rw [exec_digest_of_le hc, exec_digest_of_le (s := s.setActivity a) hc]
    rfl
  | hkey alg count =>
    have hc : count ≤ s.din.length := hc
    rw [exec_hkey_of_le hc, exec_hkey_of_le (s := s.setActivity a) hc]
    rfl
  | hsign count =>
    have hc : count ≤ s.din.length := hc
    cases hk : s.KVALID with
    | true =>
      rw [exec_hsign_of_le hk hc, exec_hsign_of_le (s := s.setActivity a) hk hc]
      rfl
    | false =>
      rw [exec_hsign_nokey hk, exec_hsign_nokey (s := s.setActivity a) hk]
      exact refuseCommand_setActivity a hc
  | clrerr => rfl

/-- A core out of reset with a command that waits goes on with that command. -/
theorem coreStep_running {s : State} (hrst : s.rst = false) (i : Instr) :
    coreStep (s.setActivity (.running i)) = exec i (s.setActivity (.running i)) := by
  simp [coreStep, hrst]

theorem coreStep_discarding {s : State} (hrst : s.rst = false) (e : CmdError) (count : Nat) :
    coreStep (s.setActivity (.discarding e count)) = refuseCommand e count (s.setActivity (.discarding e count)) := by
  simp [coreStep, hrst]

/-- An HSIGN in which the check finds no error has its key. -/
theorem key_of_checkCommand_eq_none {w : Word32} {s : State} {i : Instr} (hdec : decode w = .ok i)
    (h : checkCommand w s = none) (hop : i.op = .hsign) : s.KVALID = true := by
  cases i <;> cases hop
  simpa [checkCommand, hdec] using h

/-- The payload that a command takes, once it is there. -/
theorem executeCommand_din {w : Word32} {s : State} (hc : countField w ≤ s.din.length) :
    ∃ u, executeCommand w s = .next u ∧ u.din = s.din.drop (countField w) := by
  cases hcheck : checkCommand w s with
  | some e =>
    rw [executeCommand_of_checkCommand_eq_some hcheck]
    obtain ⟨u, hu, -, -, -, hdin⟩ := refuseCommand_completes (e := e) hc
    exact ⟨u, hu, hdin⟩
  | none =>
    obtain ⟨i, hdec, hcount⟩ := decode_of_checkCommand_eq_none hcheck
    rw [executeCommand_of_decode hdec, ← hcount]
    obtain ⟨u, hu, hframe⟩ := exec_runs (key_of_checkCommand_eq_none hdec hcheck) (hcount.symm ▸ hc)
    exact ⟨u, hu, hframe.din⟩

/-- What becomes of a word short of payload: its command, refused or not, waits, and goes on as if it had just been
accepted once the payload is there. -/
theorem executeCommand_waits {w : Word32} {s : State} (hrst : s.rst = false) (hc : s.din.length < countField w) :
    ∃ a, a ≠ .idle ∧ executeCommand w s = .next (s.setActivity a) ∧
      coreStep (s.setActivity a) = .next (s.setActivity a) ∧
      ∀ d : List Byte, countField w ≤ d.length →
        coreStep ({ s with din := d }.setActivity a) = executeCommand w { s with din := d } := by
  cases hcheck : checkCommand w s with
  | some e =>
    refine ⟨.discarding e (countField w), by simp, ?_, ?_, fun d hd => ?_⟩
    · rw [executeCommand_of_checkCommand_eq_some hcheck, refuseCommand_of_lt hc]
    · rw [coreStep_discarding hrst, refuseCommand_of_lt (s := s.setActivity (.discarding e (countField w))) hc]
      rfl
    · rw [coreStep_discarding (s := { s with din := d }) hrst, refuseCommand_setActivity _ hd,
        executeCommand_of_checkCommand_eq_some (s := { s with din := d }) ((checkCommand_congr rfl w).trans hcheck)]
  | none =>
    obtain ⟨i, hdec, hcount⟩ := decode_of_checkCommand_eq_none hcheck
    have hk := key_of_checkCommand_eq_none hdec hcheck
    rw [← hcount] at hc ⊢
    refine ⟨.running i, by simp, ?_, ?_, fun d hd => ?_⟩
    · rw [executeCommand_of_decode hdec, exec_of_lt hc hk]
    · rw [coreStep_running hrst, exec_of_lt (s := s.setActivity (.running i)) hc hk]
      rfl
    · rw [coreStep_running (s := { s with din := d }) hrst, exec_setActivity _ hd, executeCommand_of_decode hdec]

/-- Settles O17: the state in which the command waits is the old one but for its activity. -/
theorem shortPayloadIsStuck : Obligations.ShortPayloadIsStuck := by
  unfold Obligations.ShortPayloadIsStuck
  intro s w hrst hc
  obtain ⟨a, ha, hexec, hstuck, hfed⟩ := executeCommand_waits hrst hc
  refine ⟨s.setActivity a, hexec, decide_eq_true ha, rfl, hstuck, fun d hd => ⟨hfed d hd, ?_⟩⟩
  obtain ⟨u, hu, hdin⟩ := executeCommand_din (s := { s with din := d }) hd
  exact ⟨u, (hfed d hd).trans hu, hdin⟩

end Sys2Proof.Machine
end

section
/-! PROOFS. Block reset (`70_reset_and_hazards.md` section 1) and the `STATUS` word (`10_state.md` R32, `20_memory.md`
R59). -/

namespace Sys2Proof.Machine

/-! ## Block reset -/

/-- The values of R39 in a block that has just been reset, and what is the host's own as it was. -/
theorem resetBlock_values (s : State) :
    s.resetBlock.rst = s.rst ∧ s.resetBlock.D.H = iv .md5 ∧ s.resetBlock.D.OCC = 0 ∧ s.resetBlock.D.LEN = 0#64 ∧
      s.resetBlock.D.PHASE = .absorb ∧ s.resetBlock.K = zeros 128 ∧ s.resetBlock.KALG = .md5 ∧
      s.resetBlock.KVALID = false ∧ s.resetBlock.status = 0#32 ∧ s.resetBlock.din = [] ∧ s.resetBlock.dout = [] ∧
      s.resetBlock.taken = s.taken ∧ s.resetBlock.cmds = s.cmds :=
  ⟨rfl, rfl, rfl, rfl, rfl, rfl, rfl, rfl, reset_status, rfl, rfl, rfl, rfl⟩

/-- A core in reset holds its reset state. -/
theorem coreStep_of_reset {s : State} (h : s.rst = true) : coreStep s = .next s.resetBlock := by
  rw [coreStep, if_pos h]

/-- Settles O20: an edge of the reset input, and a move of the core in reset, leave the block in its reset state. -/
theorem blockResetAbandonsCommand : Obligations.BlockResetAbandonsCommand := by
  unfold Obligations.BlockResetAbandonsCommand
  refine fun s => ⟨fun rest b hscript hb => ?_, fun hscript hrst => ?_⟩
  · refine ⟨{ s with script := rest, rst := b }.resetBlock, ?_, resetBlock_values { s with script := rest, rst := b }⟩
    rw [step_of_hostMove hscript (by simp), hostMove_setReset, if_pos (by simpa using hb)]
  · have hstep := (step_of_core hscript).trans (coreStep_of_reset hrst)
    obtain ⟨hrst', hvalues⟩ := resetBlock_values { s with script := s.script.tail }
    exact ⟨_, hstep, hrst'.trans hrst, hvalues⟩

/-! ## The STATUS word -/

/-- `STATUS` is a function of the fields it shows. -/
theorem status_congr {s t : State} (hD : t.D = s.D) (hkey : sameKey s t) (herr : sameError s t)
    (hact : t.activity = s.activity) : t.status = s.status := by
  obtain ⟨-, hKALG, hKVALID⟩ := hkey
  obtain ⟨hERR, hERRCODE⟩ := herr
  simp only [State.status, State.dfin, State.busy, hD, hKALG, hKVALID, hERR, hERRCODE, hact]

theorem ofBool_busy (s : State) : BitVec.ofBool s.busy = if s.activity = .idle then 0#1 else 1#1 := by
  by_cases h : s.activity = .idle <;> simp [State.busy, h]

theorem ofBool_dfin (s : State) : BitVec.ofBool s.dfin = if s.D.PHASE = .final then 1#1 else 0#1 := by
  by_cases h : s.D.PHASE = .final <;> simp [State.dfin, h]

/-- Settles O21: the fields are read out of the word as `State.status` puts them in, and no move named changes one. -/
theorem statusWordFields : Obligations.StatusWordFields := by
  unfold Obligations.StatusWordFields
  refine ⟨fun s => ?_, fun m s hm => ?_, fun s t hbusy hrst hcmds h => ?_⟩
  · rw [← ofBool_busy, ← ofBool_dfin]
    exact statusWord_fields s.dfin s.KVALID s.ERR s.busy s.D.ALG.code s.KALG.code s.ERRCODE
  · obtain ⟨hD, -, hkey, herr, hact, -⟩ := hostMove_frames hm s
    exact status_congr hD hkey herr hact
  · rw [coreStep_of_idle_nil hrst ((busy_eq_false_iff s).mp hbusy) hcmds] at h
    exact congrArg State.status (Host.Outcome.next.inj h).symm

/-! ## Reading STATUS -/

theorem statusSample_of_idle {s : State} (h : s.busy = false) : statusSample s = s.status := by
  simp [statusSample, h]

/-- A field none of whose bits are free keeps its value in a mix of the driven word and free bits. -/
theorem extractLsb'_mix {w : Nat} (x f u : BitVec w) (start len : Nat) (h : u.extractLsb' start len = 0#len)
    (hlen : start + len ≤ w) :
    ((x &&& ~~~u) ||| (f &&& u)).extractLsb' start len = x.extractLsb' start len := by
  apply BitVec.eq_of_getLsbD_eq
  intro i hi
  have hw : start + i < w := by omega
  have hu : u[start + i] = false := by
    have hbit := congrArg (fun v => v.getLsbD i) h
    simpa [hi, hw] using hbit
  simp [hu, hw]

/-- A field outside the fields that may be free is read as it is driven (R258, log entry 9). -/
theorem statusSample_extract {s : State} {start len : Nat} (hlen : start + len ≤ 32)
    (h : ∀ u ∈ [0#32, dalgBits ||| dfinBit, dfinBit, keyBits, errBits], u.extractLsb' start len = 0#len) :
    (statusSample s).extractLsb' start len = s.status.extractLsb' start len := by
  cases hbusy : s.busy with
  | false => rw [statusSample_of_idle hbusy]
  | true =>
    simp only [statusSample, hbusy, if_true]
    exact extractLsb'_mix _ _ _ start len (h _ (unstableBits_mem s.activity)) hlen

theorem status_reserved (s : State) : s.status.extractLsb' 10 22 = 0#22 := by
  obtain ⟨-, -, -, -, -, -, -, hreserved⟩ :=
    statusWord_fields s.dfin s.KVALID s.ERR s.busy s.D.ALG.code s.KALG.code s.ERRCODE
  exact hreserved

/-- `BUSY` is not among the fields that may be free. -/
theorem statusSample_busy (s : State) : (statusSample s).extractLsb' 0 1 = s.status.extractLsb' 0 1 :=
  statusSample_extract (by decide) (by simp [dalgBits, dfinBit, keyBits, errBits])

/-- Nor are the reserved bits. -/
theorem statusSample_reserved (s : State) : (statusSample s).extractLsb' 10 22 = 0#22 :=
  (statusSample_extract (by decide) (by simp [dalgBits, dfinBit, keyBits, errBits])).trans (status_reserved s)

/-- Settles O22: the read writes the sample and a draw, and `BUSY` and the reserved bits of a sample are never free. -/
theorem statusReadHasNoSideEffect : Obligations.StatusReadHasNoSideEffect := by
  unfold Obligations.StatusReadHasNoSideEffect
  intro s rest hscript
  refine ⟨_, step_of_hostMove hscript (by simp), rfl, fun hbusy => statusSample_of_idle hbusy, ?_, ?_⟩
  · exact statusSample_busy { s with script := rest }
  · exact statusSample_reserved { s with script := rest }

end Sys2Proof.Machine
end

section
/-! PROOFS. The commands on the host-visible instance (`42_commands.md` sections 2 and 3): the form each requires of its
word, what each does to `D`, and that a message delivered in commands gives the digest of its bytes. -/

namespace Sys2Proof.Machine

/-! ## The form of the words -/

/-- Any operation but HSIGN is refused exactly where its fields do not fit it. -/
theorem checkCommand_eq_ite {w : Word32} {o : Op} (hop : w.extractLsb' 0 4 = o.code) (ho : o ≠ .hsign) (s : State)
    {P : Prop} [Decidable P] (hP : P ↔ ¬ fieldsFit o w) :
    checkCommand w s = if P then some .field else none := by
  rw [checkCommand_of_code hop, if_neg (mt And.left ho), ← ite_not]
  exact if_congr hP.symm rfl rfl

/-- An operation without operands has one word (R76). -/
theorem fieldsFit_iff_of_mask {w : Word32} {o : Op} (hop : w.extractLsb' 0 4 = o.code) (ho : o.mask = 0xFFFFFFFF#32) :
    fieldsFit o w ↔ w = o.pattern := by
  have hmask : w &&& o.mask = w := ho ▸ BitVec.and_allOnes
  have hform := mask_iff o w
  rw [hmask] at hform
  exact ⟨fun hfit => hform.mpr ⟨hop, hfit⟩, fun hw => (hform.mp hw).2⟩

theorem fieldsFit_init_iff (w : Word32) :
    fieldsFit .init w ↔ (w.extractLsb' 8 24).toNat = 0 ∧ w.extractLsb' 6 2 = 0#2 := by
  simp [fieldsFit, Op.algless, Op.countless, BitVec.toNat_eq, and_comm]

theorem fieldsFit_update_iff (w : Word32) :
    fieldsFit .update w ↔ w.extractLsb' 4 2 = 0#2 ∧ w.extractLsb' 6 2 = 0#2 := by
  simp [fieldsFit, Op.algless, Op.countless, and_comm]

theorem fieldsFit_digest_iff (w : Word32) : fieldsFit .digest w ↔ w.extractLsb' 6 2 = 0#2 := by
  simp [fieldsFit, Op.algless, Op.countless]

/-! ## INIT and RESET -/

/-- Settles O37: INIT replaces `D` by a fresh instance and completes. -/
theorem initStartsMessage : Obligations.InitStartsMessage := by
  unfold Obligations.InitStartsMessage
  refine ⟨fun alg s => ?_, fun _ => rfl, fun w s hop => ?_⟩
  · refine ⟨_, exec_init alg s, iv_alg alg, rfl, rfl, rfl, rfl, ?_, ?_, rfl, ⟨rfl, rfl, rfl⟩, ⟨rfl, rfl⟩, ⟨rfl, rfl⟩,
      ⟨rfl, rfl, rfl⟩, ⟨rfl, rfl, rfl, rfl⟩, rfl⟩
    · rw [status_dalg]
      exact congrArg Alg.code (iv_alg alg)
    · rw [status_dfin]
      rfl
  · refine checkCommand_eq_ite (o := .init) hop (by decide) s ?_
    rw [fieldsFit_init_iff, not_and_or]

/-- Settles O38: RESET is INIT of `D`'s own algorithm. -/
theorem resetRestartsMessage : Obligations.ResetRestartsMessage := by
  unfold Obligations.ResetRestartsMessage
  refine ⟨fun s => ?_, rfl, fun w s hop => ?_⟩
  · obtain ⟨hinit, -⟩ := initStartsMessage
    obtain ⟨t, ht, hA, hH, hOCC, hLEN, hPHASE, -, hdfin, hframe⟩ := hinit s.D.ALG s
    exact ⟨t, ht, hA, hH, hOCC, hLEN, hPHASE, hdfin, hframe⟩
  · exact checkCommand_eq_ite (o := .reset) hop (by decide) s
      (not_congr (fieldsFit_iff_of_mask (o := .reset) hop rfl)).symm

/-! ## UPDATE -/

/-- Absorbing keeps the phase, whatever the instance. -/
theorem absorb_PHASE (x : Instance) (s : List Byte) : (absorb x s).PHASE = x.PHASE := by
  unfold absorb
  split
  · rfl
  · dsimp only
    split
    · unfold absorbPartial
      dsimp only
      split <;> rfl
    · rfl

/-- Forgetting the stale bytes leaves the message as it is. -/
theorem forgetStale_sameMessage (d : Nat) {x : Instance} (h : x.Ready) : sameMessage (forgetStale d x) x :=
  ⟨rfl, rfl, rfl, rfl, forgetStale_tail d h⟩

theorem updateD_D_nil {s : State} (h : s.D.PHASE = .absorb) : (updateD [] s).D = s.D := by
  simp [updateD, h]

theorem updateD_D_absorb {p : List Byte} {s : State} (h : s.D.PHASE = .absorb) (hp : p.length ≠ 0) :
    (updateD p s).D = forgetStale s.draws (absorb s.D p) := by
  simp only [updateD, h, if_neg hp]
  rfl

theorem updateD_D_final (p : List Byte) {s : State} (h : s.D.PHASE = .final) :
    (updateD p s).D = misused s.draws s.D := by
  simp only [updateD, h]
  rfl

theorem updateD_PHASE (p : List Byte) (s : State) : (updateD p s).D.PHASE = s.D.PHASE := by
  cases hph : s.D.PHASE with
  | absorb =>
    by_cases hp : p.length = 0
    · rw [List.eq_nil_of_length_eq_zero hp, updateD_D_nil hph, hph]
    · rw [updateD_D_absorb hph hp, forgetStale_PHASE, absorb_PHASE, hph]
  | final => rw [updateD_D_final p hph, misused_PHASE, hph]

/-- In ABSORB, UPDATE leaves the message that absorbing its payload leaves (R183). -/
theorem updateD_sameMessage (p : List Byte) {s : State} (hph : s.D.PHASE = .absorb) (h : s.D.Ready) :
    sameMessage (updateD p s).D (absorb s.D p) := by
  by_cases hp : p.length = 0
  · rw [List.eq_nil_of_length_eq_zero hp, updateD_D_nil hph]
    exact ⟨rfl, rfl, rfl, rfl, rfl⟩
  · rw [updateD_D_absorb hph hp]
    exact forgetStale_sameMessage _ (absorb_spec s.D p h).2.1

/-- UPDATE with its payload there: `D` is updated, the payload taken, nothing else changed. -/
theorem exec_update_frame {count : Nat} {s : State} (hc : count ≤ s.din.length) :
    ∃ t, exec (.update count) s = .next t ∧ t.D = (updateD (s.din.take count) s).D ∧ t.din = s.din.drop count ∧
      t.activity = .idle ∧ sameKey s t ∧ sameError s t ∧ sameScratch s t ∧ sameOutput s t ∧ sameHost s t := by
  have hD := congrArg State.D (updateD_comm (s.din.take count) (State.dropInput count) s rfl rfl fun _ _ => rfl)
  obtain ⟨x, d, hupd⟩ := updateD_cases (s.din.take count) (s.dropInput count)
  refine ⟨_, exec_update_of_le hc, hD, ?_⟩
  rw [hupd]
  exact ⟨rfl, rfl, ⟨rfl, rfl, rfl⟩, ⟨rfl, rfl⟩, ⟨rfl, rfl⟩, ⟨rfl, rfl, rfl⟩, rfl, rfl, rfl, rfl⟩

/-- Settles O39: what `updateD` does in each phase. -/
theorem updateAbsorbsPayload : Obligations.UpdateAbsorbsPayload := by
  unfold Obligations.UpdateAbsorbsPayload
  refine ⟨fun count s hc => ?_, fun w s hop => ?_⟩
  · obtain ⟨t, ht, hD, hdin, hact, hkey, herr, hscratch, hout, hhost⟩ := exec_update_frame hc
    refine ⟨t, ht, hdin, (busy_eq_false_iff t).mpr hact, hD ▸ updateD_PHASE _ s, hkey, herr, hscratch, hout, hhost,
      fun hph h0 => ?_, fun hph hwf => ?_, fun hph => ?_⟩
    · rw [hD, h0, List.take_zero, updateD_D_nil hph]
    · have hsame := updateD_sameMessage (s.din.take count) hph hwf.ready
      rw [hD]
      exact ⟨hsame, (congrArg Chain.alg hsame.1).trans (absorb_ALG _ _ hwf.ready)⟩
    · rw [hD, updateD_D_final _ hph]
      exact ⟨misused_ALG .., (misused_wf _ _).2⟩
  · refine checkCommand_eq_ite (o := .update) hop (by decide) s ?_
    rw [fieldsFit_update_iff, not_and_or]

/-! ## RESULT -/

/-- Settles O40: in ABSORB `D` is finalized and its digest written, in FINAL `D` is misused. -/
theorem resultOutputsDigest : Obligations.ResultOutputsDigest := by
  unfold Obligations.ResultOutputsDigest
  refine ⟨fun s => ?_, fun w s hop => ?_⟩
  · cases hph : s.D.PHASE with
    | absorb =>
      refine ⟨_, _, exec_result_absorb hph, emit_wrote _ _, finalize_length s.D, rfl, ?_, ⟨rfl, rfl, rfl⟩, ⟨rfl, rfl⟩,
        ⟨rfl, rfl⟩, ⟨rfl, rfl, rfl, rfl⟩, rfl, fun _ hwf => ?_, fun hwf => ⟨finalize_ALG s.D, (finalize_wf s.D hwf).2⟩⟩
      · rw [status_dfin]
        rfl
      · obtain ⟨-, -, hocc, hLEN, -⟩ := finalize_spec s.D hwf.ready
        exact ⟨rfl, rfl, hocc, hLEN⟩
    | final =>
      refine ⟨_, _, exec_result_final hph, emit_wrote _ _, freeBytes_length .., hph, ?_, ⟨rfl, rfl, rfl⟩, ⟨rfl, rfl⟩,
        ⟨rfl, rfl⟩, ⟨rfl, rfl, rfl, rfl⟩, rfl, fun h => by simp at h,
        fun _ => ⟨misused_ALG .., (misused_wf s.draws s.D).2⟩⟩
      rw [status_dfin]
      simp [State.dfin, hph]
  · exact checkCommand_eq_ite (o := .result) hop (by decide) s
      (not_congr (fieldsFit_iff_of_mask (o := .result) hop rfl)).symm

/-! ## Misuse -/

/-- UPDATE and RESULT leave an instance FINAL that was FINAL (R161). -/
theorem exec_misuse_frame {i : Instr} {s t : State} (h : exec i s = .next t) (hph : s.D.PHASE = .final)
    (hc : i.count ≤ s.din.length) (hop : i.op = .result ∨ i.op = .update) :
    sameError s t ∧ t.D.PHASE = .final ∧ t.D.ALG = s.D.ALG ∧ t.D.OCC < t.D.ALG.B ∧ sameKey s t ∧ sameScratch s t ∧
      t.din = s.din.drop i.count ∧ sameHost s t ∧ (i.op = .update → sameOutput s t) ∧
      (i.op = .result → ∃ out, out.length = s.D.ALG.N ∧ wroteOutput out s t) := by
  cases i with
  | result =>
    rw [exec_result_final hph] at h
    obtain rfl := Host.Outcome.next.inj h
    exact ⟨⟨rfl, rfl⟩, hph, misused_ALG .., (misused_wf _ _).2, ⟨rfl, rfl, rfl⟩, ⟨rfl, rfl⟩, rfl, ⟨rfl, rfl, rfl, rfl⟩,
      nofun, fun _ => ⟨_, freeBytes_length .., emit_wrote _ _⟩⟩
  | update count =>
    obtain ⟨u, hu, hD, hdin, -, hkey, herr, hscratch, hout, hhost⟩ := exec_update_frame hc
    obtain rfl : u = t := Host.Outcome.next.inj (hu.symm.trans h)
    rw [hD, updateD_D_final _ hph]
    exact ⟨herr, hph, misused_ALG .., (misused_wf _ _).2, hkey, hscratch, hdin, hhost, fun _ => hout, nofun⟩
  | init | reset | digest | hkey | hsign | clrerr => simp [Instr.op] at hop

/-- Settles O41: `D` alone is misused, and a command that is not one of these two, INIT or RESET keeps it. -/
theorem misuseIsNoError : Obligations.MisuseIsNoError := by
  unfold Obligations.MisuseIsNoError
  refine ⟨fun i s hop hph hc => ?_, fun i s t h hph hinit hreset => ?_⟩
  · obtain ⟨t, ht⟩ := exec_next i s
    obtain ⟨herr, hfinal, hA, hocc, hkey, hscratch, hdin, hhost, hupdate, hresult⟩ := exec_misuse_frame ht hph hc hop
    refine ⟨t, ht, herr, ?_, hfinal, hA, hocc, hdin, hkey, hscratch, hhost, hupdate, hresult⟩
    rw [status_dfin, ofBool_dfin, if_pos hfinal]
  · by_cases hop : i.op = .result ∨ i.op = .update
    · obtain ⟨-, -, href⟩ | ⟨-, -, rfl⟩ | ⟨-, hc⟩ := exec_cases h
      · rw [(refuseCommand_frame href).1, hph]
      · exact hph
      · exact (exec_misuse_frame h hph hc hop).2.1
    · rw [not_or] at hop
      obtain ⟨hD, -⟩ := commandFrames i s t h
      rw [hD hinit hreset hop.2 hop.1, hph]

/-! ## DIGEST -/

/-- Settles O42: the digest is computed on `I`, and does not depend on it (`digestOn_eq`). -/
theorem digestCommandOutputsDigest : Obligations.DigestCommandOutputsDigest := by
  unfold Obligations.DigestCommandOutputsDigest
  refine ⟨fun alg count s hc => ?_, fun w s hop => ?_⟩
  · exact ⟨_, exec_digest_of_le hc, emit_wrote _ _, digest_length .., rfl, rfl, rfl, ⟨rfl, rfl, rfl⟩, ⟨rfl, rfl⟩, rfl,
      rfl, rfl, rfl⟩
  · exact checkCommand_eq_ite (o := .digest) hop (by decide) s (not_congr (fieldsFit_digest_iff w)).symm

/-! ## A message in commands -/

/-- The instance has absorbed exactly the message `m` under `alg`. -/
structure Instance.Holds (x : Instance) (alg : Alg) (m : List Byte) : Prop where
  ready : x.Ready
  view : x.view = feed alg.B (iv alg, []) m
  LEN : x.LEN = BitVec.ofNat 64 m.length
  PHASE : x.PHASE = .absorb

theorem Instance.Holds.ALG {x : Instance} {alg : Alg} {m : List Byte} (h : x.Holds alg m) : x.ALG = alg := by
  have hv := congrArg (fun v => v.1.alg) h.view
  rw [feed_alg] at hv
  exact hv.trans (iv_alg alg)

theorem initInstance_holds (x : Instance) (alg : Alg) : (initInstance x alg).Holds alg [] :=
  ⟨initInstance_ready x alg, initInstance_view x alg, rfl, rfl⟩

theorem Instance.Holds.absorb {x : Instance} {alg : Alg} {m : List Byte} (h : x.Holds alg m) (p : List Byte) :
    (absorb x p).Holds alg (m ++ p) := by
  obtain ⟨hv, hready, hLEN, hPHASE⟩ := absorb_spec x p h.ready
  refine ⟨hready, ?_, ?_, hPHASE.trans h.PHASE⟩
  · rw [hv, h.ALG, h.view, feed_append]
  · rw [hLEN, h.LEN, List.length_append, BitVec.ofNat_add]

/-- Stale bytes are no part of the message. -/
theorem Instance.Holds.of_sameMessage {x y : Instance} {alg : Alg} {m : List Byte} (h : x.Holds alg m)
    (hy : y.Ready) (hsame : sameMessage y x) : y.Holds alg m := by
  obtain ⟨hv, hLEN, hPHASE⟩ := (sameMessage_iff hy h.ready).mp hsame
  exact ⟨hy, hv.trans h.view, hLEN.trans h.LEN, hPHASE.trans h.PHASE⟩

theorem Instance.Holds.forgetStale {x : Instance} {alg : Alg} {m : List Byte} (h : x.Holds alg m) (d : Nat) :
    (forgetStale d x).Holds alg m :=
  h.of_sameMessage (forgetStale_ready d h.ready) (forgetStale_sameMessage d h.ready)

/-- Finalizing gives the digest of the message (R163). -/
theorem Instance.Holds.finalize {x : Instance} {alg : Alg} {m : List Byte} (h : x.Holds alg m) :
    (finalize x).1 = digest alg m := by
  have hfresh := (initInstance_holds (freshInstance alg) alg).absorb m
  rw [List.nil_append] at hfresh
  exact (finalize_congr h.ready hfresh.ready (h.view.trans hfresh.view.symm) (h.LEN.trans hfresh.LEN.symm)).1

theorem updateD_holds {s : State} {alg : Alg} {m : List Byte} (p : List Byte) (h : s.D.Holds alg m) :
    (updateD p s).D.Holds alg (m ++ p) := by
  by_cases hp : p.length = 0
  · rw [List.eq_nil_of_length_eq_zero hp, updateD_D_nil h.PHASE, List.append_nil]
    exact h
  · rw [updateD_D_absorb h.PHASE hp]
    exact (h.absorb p).forgetStale _

/-- INIT starts an empty message. -/
theorem exec_init_holds (alg : Alg) (s : State) :
    ∃ t, exec (.init alg) s = .next t ∧ t.D.Holds alg [] ∧ t.din = s.din ∧ t.activity = .idle ∧ sameOutput s t ∧
      sameHost s t :=
  ⟨_, exec_init alg s, (initInstance_holds s.D alg).forgetStale s.draws, rfl, rfl, ⟨rfl, rfl, rfl⟩, rfl, rfl, rfl, rfl⟩

/-- UPDATE adds its payload to the message. -/
theorem exec_update_holds {count : Nat} {s : State} {alg : Alg} {m : List Byte} (hc : count ≤ s.din.length)
    (h : s.D.Holds alg m) :
    ∃ t, exec (.update count) s = .next t ∧ t.D.Holds alg (m ++ s.din.take count) ∧ t.din = s.din.drop count ∧
      t.activity = .idle ∧ sameOutput s t ∧ sameHost s t := by
  obtain ⟨t, ht, hD, hdin, hact, -, -, -, hout, hhost⟩ := exec_update_frame hc
  exact ⟨t, ht, hD ▸ updateD_holds _ h, hdin, hact, hout, hhost⟩

/-- RESULT writes the digest of the message. -/
theorem exec_result_holds {s : State} {alg : Alg} {m : List Byte} (h : s.D.Holds alg m) :
    ∃ t, exec .result s = .next t ∧ wroteOutput (digest alg m) s t ∧ t.din = s.din ∧ sameHost s t := by
  refine ⟨_, exec_result_absorb h.PHASE, ?_, rfl, rfl, rfl, rfl, rfl⟩
  rw [← h.finalize]
  exact emit_wrote _ _

theorem output_of_sameOutput {s t : State} (h : sameOutput s t) : t.output = s.output := by
  obtain ⟨hdout, htaken, -⟩ := h
  rw [State.output, State.output, hdout, htaken]

/-- UPDATE and RESULT after a message has been started write the digest of the payload alone. -/
theorem exec_update_result {count : Nat} {s s1 : State} {alg : Alg} (hc : count ≤ s.din.length)
    (hD : s1.D.Holds alg []) (hdin : s1.din = s.din) (hout : sameOutput s s1) :
    ∃ s2 s3, exec (.update count) s1 = .next s2 ∧ exec .result s2 = .next s3 ∧
      s3.output = s.output ++ digest alg (s.din.take count) ∧ s3.din = s.din.drop count := by
  obtain ⟨s2, h2, hD2, hdin2, -, hout2, -⟩ := exec_update_holds (hdin ▸ hc) hD
  obtain ⟨s3, h3, ⟨hout3, -⟩, hdin3, -⟩ := exec_result_holds hD2
  refine ⟨s2, s3, h2, h3, ?_, ?_⟩
  · rw [hout3, output_of_sameOutput hout2, output_of_sameOutput hout, hdin, List.nil_append]
  · rw [hdin3, hdin2, hdin]

/-- Settles O43: both outputs are the digest of the payload. -/
theorem oneShotEqualsStreaming : Obligations.OneShotEqualsStreaming := by
  unfold Obligations.OneShotEqualsStreaming
  intro alg count s hc
  obtain ⟨s1, h1, hD, hdin, -, hout, -⟩ := exec_init_holds alg s
  obtain ⟨s2, s3, h2, h3, hout3, hdin3⟩ := exec_update_result hc hD hdin hout
  exact ⟨_, s1, s2, s3, _, exec_digest_of_le hc, h1, h2, h3, emit_output .., hout3, digest_length .., hdin3.symm⟩

/-- Settles O44: RESET starts an empty message. -/
theorem resetIndependence : Obligations.ResetIndependence := by
  unfold Obligations.ResetIndependence
  intro count s hc
  obtain ⟨s1, h1, hD, hdin, -, hout, -⟩ := exec_init_holds s.D.ALG s
  obtain ⟨s2, s3, h2, h3, hout3, -⟩ := exec_update_result hc hD hdin hout
  exact ⟨s1, s2, s3, h1, h2, h3, hout3⟩

end Sys2Proof.Machine
end

section
/-! PROOFS. The key and the HMAC engine (`42_commands.md` section 4; `60_exceptions.md` R234): what HKEY stores, what
HSIGN outputs, and that the key leaves the block in the bytes of a MAC alone. -/

namespace Sys2Proof.Machine

/-! ## HKEY -/

theorem fieldsFit_hkey_iff (w : Word32) : fieldsFit .hkey w ↔ w.extractLsb' 6 2 = 0#2 := by
  simp [fieldsFit, Op.algless, Op.countless]

/-- The derived key of a secret, in closed form (R186). -/
def derivedKey (alg : Alg) (secret : List Byte) : List Byte :=
  if secret.length ≤ alg.B then secret ++ zeros (alg.B - secret.length) else digest alg secret ++ zeros (alg.B - alg.N)

theorem deriveKey_eq_derivedKey (x : Instance) (alg : Alg) (secret : List Byte) :
    deriveKey x alg secret = derivedKey alg secret := deriveKey_eq x alg secret

theorem derivedKey_length (alg : Alg) (secret : List Byte) : (derivedKey alg secret).length = alg.B := by
  rw [← deriveKey_eq_derivedKey (freshInstance alg), deriveKey_length]

/-- The block holds a key of `alg`, with the inner pad applied and zeros above it (R187, `10_state.md` R30). -/
structure State.HoldsKey (s : State) (alg : Alg) (key : List Byte) : Prop where
  K : s.K = xorBytes key innerPad ++ zeros (spaceSize - alg.B)
  KALG : s.KALG = alg
  KVALID : s.KVALID = true

/-- HKEY with its payload there: the padded key is stored, the payload taken, nothing else changed but `I`. -/
theorem exec_hkey_stores (alg : Alg) {count : Nat} {s : State} (hc : count ≤ s.din.length) (hK : s.K.wf) :
    ∃ t, exec (.hkey alg count) s = .next t ∧ t.HoldsKey alg (derivedKey alg (s.din.take count)) ∧
      t.din = s.din.drop count ∧ t.activity = .idle ∧ t.D = s.D ∧ t.O = s.O ∧ sameError s t ∧ sameOutput s t ∧
      sameHost s t := by
  refine ⟨_, exec_hkey_of_le hc, ⟨?_, rfl, rfl⟩, rfl, rfl, rfl, rfl, ⟨rfl, rfl⟩, ⟨rfl, rfl, rfl⟩, rfl, rfl, rfl, rfl⟩
  exact (keyRegister_eq (deriveKey_length ..) hK).trans (by rw [deriveKey_eq_derivedKey])

/-- Settles O45: the key register after HKEY, and the field that alone can be wrong in its word. -/
theorem hkeyStoresPaddedKey : Obligations.HkeyStoresPaddedKey := by
  unfold Obligations.HkeyStoresPaddedKey
  refine ⟨fun alg count s hc hK => ?_, fun w s hop => ?_⟩
  · obtain ⟨t, ht, ⟨hkey, hKALG, hKVALID⟩, hdin, hact, hD, hO, herr, hout, hhost⟩ := exec_hkey_stores alg hc hK
    obtain ⟨hvalid, halg⟩ := status_key t
    refine ⟨t, ht, ?_, hKALG, hKVALID, ?_, ?_, hdin, (busy_eq_false_iff t).mpr hact, hD, hO, herr, hout, hhost⟩
    · rw [hkey, derivedKey, List.length_take, Nat.min_eq_left hc]
      rfl
    · rw [hvalid, hKVALID]
      rfl
    · rw [halg, hKALG]
  · exact checkCommand_eq_ite (o := .hkey) hop (by decide) s (not_congr (fieldsFit_hkey_iff w)).symm

/-! ## HSIGN -/

theorem fieldsFit_hsign_iff (w : Word32) : fieldsFit .hsign w ↔ w.extractLsb' 4 2 = 0#2 ∧ w.extractLsb' 6 2 = 0#2 := by
  simp [fieldsFit, Op.algless, Op.countless, and_comm]

/-- The MAC of a message under the contents of the key register, in closed form (R188). -/
def macOf (K : Memory) (alg : Alg) (msg : List Byte) : List Byte :=
  digest alg (xorBytes (K.take alg.B) (innerPad ^^^ outerPad) ++ digest alg (K.take alg.B ++ msg))

theorem macOf_length (K : Memory) (alg : Alg) (msg : List Byte) : (macOf K alg msg).length = alg.N := digest_length ..

/-- HSIGN with a key and its payload there: the MAC is written, the payload taken, nothing else changed but `I` and
`O`. -/
theorem exec_hsign_signs {count : Nat} {s : State} (hk : s.KVALID = true) (hc : count ≤ s.din.length) :
    ∃ t, exec (.hsign count) s = .next t ∧ wroteOutput (macOf s.K s.KALG (s.din.take count)) s t ∧
      t.din = s.din.drop count ∧ t.D = s.D ∧ sameKey s t ∧ sameError s t ∧ sameHost s t := by
  refine ⟨_, exec_hsign_of_le hk hc, ?_, rfl, rfl, ⟨rfl, rfl, rfl⟩, ⟨rfl, rfl⟩, rfl, rfl, rfl, rfl⟩
  rw [macOf, ← sign_eq s.I s.O]
  exact emit_wrote _ _

/-- Settles O46: the MAC in closed form, and the word's form before the key. -/
theorem hsignOutputsMac : Obligations.HsignOutputsMac := by
  unfold Obligations.HsignOutputsMac
  refine ⟨fun count s hc hk => ?_, fun w s hop => ?_⟩
  · obtain ⟨t, ht, hout, hframe⟩ := exec_hsign_signs hk hc
    exact ⟨t, _, ht, hout, macOf_length .., rfl, hframe⟩
  · rw [checkCommand_of_code (o := .hsign) hop, ← ite_not]
    refine if_congr ?_ rfl ?_
    · rw [fieldsFit_hsign_iff, not_and_or]
    · cases s.KVALID <;> rfl

/-! ## HKEY and then HSIGN -/

/-- Under the register that HKEY stores, the MAC is the HMAC: the outer pad on a key with the inner pad applied is the
XOR of the two. -/
theorem macOf_keyRegister {alg : Alg} {key : List Byte} (hkey : key.length = alg.B) (above msg : List Byte) :
    macOf (xorBytes key innerPad ++ above) alg msg = hmacOf alg key msg := by
  have htake : (xorBytes key innerPad ++ above).take alg.B = xorBytes key innerPad :=
    List.take_left' (by rw [xorBytes_length, hkey])
  have hpads : innerPad ^^^ (innerPad ^^^ outerPad) = outerPad := by decide
  rw [macOf, htake, xorBytes_xorBytes, hpads, hmacOf]

/-- HSIGN of the message that is there writes its HMAC under the key held. -/
theorem exec_hsign_hmac {alg : Alg} {secret msg rest : List Byte} {s : State}
    (h : s.HoldsKey alg (derivedKey alg secret)) (hdin : s.din = msg ++ rest) :
    ∃ t, exec (.hsign msg.length) s = .next t ∧ wroteOutput (hmacOf alg (derivedKey alg secret) msg) s t ∧
      t.din = rest ∧ t.D = s.D ∧ sameHost s t := by
  obtain ⟨t, ht, hwrote, hdint, hD, -, -, hhost⟩ := exec_hsign_signs (count := msg.length) h.KVALID (by simp [hdin])
  rw [hdin, List.take_left, h.K, h.KALG, macOf_keyRegister (derivedKey_length ..)] at hwrote
  rw [hdin, List.drop_left] at hdint
  exact ⟨t, ht, hwrote, hdint, hD, hhost⟩

/-- HKEY of the secret that is there stores the key derived from it. -/
theorem exec_hkey_secret (alg : Alg) {secret rest : List Byte} {s : State} (hK : s.K.wf)
    (hdin : s.din = secret ++ rest) :
    ∃ t, exec (.hkey alg secret.length) s = .next t ∧ t.HoldsKey alg (derivedKey alg secret) ∧ t.din = rest ∧
      t.activity = .idle ∧ t.D = s.D ∧ sameOutput s t ∧ sameHost s t := by
  obtain ⟨t, ht, hkey, hdint, hact, hD, -, -, hout, hhost⟩ :=
    exec_hkey_stores alg (count := secret.length) (by simp [hdin]) hK
  rw [hdin, List.take_left] at hkey
  rw [hdin, List.drop_left] at hdint
  exact ⟨t, ht, hkey, hdint, hact, hD, hout, hhost⟩

/-- Settles O47: the stored register makes the MAC the HMAC. -/
theorem keyThenSignIsHmac : Obligations.KeyThenSignIsHmac := by
  unfold Obligations.KeyThenSignIsHmac
  intro alg secret msg rest s hK hdin
  obtain ⟨t, ht, hkey, hdint, -, hD, hout, -⟩ := exec_hkey_secret alg hK (hdin.trans (List.append_assoc ..))
  obtain ⟨u, hu, hwrote, hdinu, hDu, -⟩ := exec_hsign_hmac hkey hdint
  refine ⟨t, u, ht, hu, hwrote, ?_, hdinu, hDu.trans hD⟩
  rw [hwrote.1, output_of_sameOutput hout]
  rfl

/-! ## The key leaves only as a MAC -/

/-- The state with other contents of the key register. -/
def State.setK (K : Memory) (s : State) : State := { s with K := K }

/-- Outcomes that differ in the key register at most, one of them from a state with other contents of it. -/
theorem nextSameButKey_of_setK {r r' : Result} {t : State} (K : Memory) (h : r = .next t) (h' : r' = .next (t.setK K)) :
    nextSameButKey r r' :=
  ⟨t, t.setK K, h, h', rfl⟩

theorem refuseCommand_sameButKey (e : CmdError) (count : Nat) (K : Memory) (s : State) :
    nextSameButKey (refuseCommand e count s) (refuseCommand e count (s.setK K)) := by
  rcases Nat.lt_or_ge s.din.length count with hc | hc
  · exact nextSameButKey_of_setK K (refuseCommand_of_lt hc) (refuseCommand_of_lt (s := s.setK K) hc)
  · have hrec := recordError_comm e (State.setK K) (s.dropInput count) rfl fun _ _ => rfl
    exact nextSameButKey_of_setK K (refuseCommand_of_le hc) ((refuseCommand_of_le (s := s.setK K) hc).trans
      (congrArg Host.Outcome.next (congrArg State.complete hrec)))

/-- A command that waits for its payload has not read the key register. -/
theorem exec_sameButKey_of_lt {i : Instr} {s : State} (K : Memory) (hc : s.din.length < i.count)
    (hk : i.op = .hsign → s.KVALID = true) : nextSameButKey (exec i s) (exec i (s.setK K)) :=
  nextSameButKey_of_setK K (exec_of_lt hc hk) (exec_of_lt (s := s.setK K) hc hk)

/-- A command that runs and is no HSIGN leads to states that differ in the key register at most; HKEY overwrites
the key whatever it was. -/
theorem exec_sameButKey_of_le {i : Instr} {s : State} (K : Memory) (hop : i.op ≠ .hsign) (hc : i.count ≤ s.din.length) :
    nextSameButKey (exec i s) (exec i (s.setK K)) := by
  cases i with
  | init alg => exact nextSameButKey_of_setK K (exec_init alg s) rfl
  | reset => exact nextSameButKey_of_setK K (exec_reset s) rfl
  | update count =>
    have hupd := updateD_comm (s.din.take count) (State.setK K) (s.dropInput count) rfl rfl fun _ _ => rfl
    exact nextSameButKey_of_setK K (exec_update_of_le hc) ((exec_update_of_le (s := s.setK K) hc).trans
      (congrArg Host.Outcome.next (congrArg State.complete hupd)))
  | result =>
    cases hph : s.D.PHASE with
    | absorb => exact nextSameButKey_of_setK K (exec_result_absorb hph) (exec_result_absorb (s := s.setK K) hph)
    | final => exact nextSameButKey_of_setK K (exec_result_final hph) (exec_result_final (s := s.setK K) hph)
  | digest alg count =>
    exact nextSameButKey_of_setK K (exec_digest_of_le hc) (exec_digest_of_le (s := s.setK K) hc)
  | hkey alg count => exact ⟨_, _, exec_hkey_of_le hc, exec_hkey_of_le (s := s.setK K) hc, rfl⟩
  | hsign count => exact absurd rfl hop
  | clrerr => exact nextSameButKey_of_setK K (exec_clrerr s) rfl

/-- Outputs of one length under two key registers leave states that differ in the register and the output alone. -/
theorem emit_sameButKey (u : State) (K : Memory) {mac mac' : List Byte} (h : mac'.length = mac.length) :
    sameButKey (u.emit mac)
      { (u.setK K).emit mac' with taken := (u.emit mac).taken, dout := (u.emit mac).dout } := by
  simp [sameButKey, State.setK, State.emit, State.drain, h]

/-- Settles O49: no command but HSIGN reads the key register to write anything else, and HSIGN reads it for the MAC. -/
theorem keyLeavesOnlyAsMac : Obligations.KeyLeavesOnlyAsMac := by
  unfold Obligations.KeyLeavesOnlyAsMac
  intro s s' hs
  obtain ⟨K, rfl⟩ : ∃ K, s' = s.setK K := ⟨_, hs⟩
  refine ⟨fun i hop => ?_, fun e count => refuseCommand_sameButKey e count K s, fun count h => ?_,
    fun count hk hc => ?_⟩
  · rcases Nat.lt_or_ge s.din.length i.count with hc | hc
    · exact exec_sameButKey_of_lt K hc fun h => absurd h hop
    · exact exec_sameButKey_of_le K hop hc
  · cases hk : s.KVALID with
    | false =>
      rw [exec_hsign_nokey hk, exec_hsign_nokey (s := s.setK K) hk]
      exact refuseCommand_sameButKey .nokey count K s
    | true => exact exec_sameButKey_of_lt (i := .hsign count) K (h.resolve_left (by simp [hk])) fun _ => hk
  · exact ⟨_, _, _, _, exec_hsign_of_le hk hc, exec_hsign_of_le (s := s.setK K) hk hc, emit_output .., emit_output ..,
      sign_length .., sign_length .., emit_wrote _ _, emit_wrote _ _,
      emit_sameButKey _ K ((sign_length ..).trans (sign_length ..).symm)⟩

end Sys2Proof.Machine
end

section
/-! PROOFS. The assembly language (`30_encoding.md` section 5): what each kind of line assembles to, and that the
pseudo-commands HASH and HMAC, offered and run, output the digest and the MAC. -/

namespace Sys2Proof.Machine

/-! ## Lines of one command -/

theorem assembleCommand_of_le {i : Instr} {bs : List Byte} (h : bs.length ≤ maxPayload) :
    assembleCommand i bs = some [(encode i, bs)] := assembleWord_of_le h

theorem assembleCommand_of_lt {i : Instr} {bs : List Byte} (h : maxPayload < bs.length) :
    assembleCommand i bs = none := assembleWord_of_lt h

theorem assemblesTo_of_command {l : AsmLine} {i : Instr} {bs : List Byte} (hl : assemble l = assembleCommand i bs)
    (h : bs.length ≤ maxPayload) (hwf : i.wf = true) : assemblesTo l [(i, bs)] :=
  ⟨_, hl.trans (assembleCommand_of_le h), by simp [decodeOfEncode i hwf]⟩

/-! ## Lines of several commands -/

theorem updatePieces_length_le {bs p : List Byte} (hp : p ∈ updatePieces bs) : p.length ≤ maxPayload := by
  obtain ⟨-, hle, -⟩ := updatePieces_isSplit bs
  exact hle p hp

/-- The words of the UPDATEs decode to them, each with the length of its piece (R83). -/
theorem assembleUpdates_decode (bs : List Byte) :
    (assembleUpdates bs).map (fun p => (decode p.1, p.2)) =
      ((updatePieces bs).map fun p => (Instr.update p.length, p)).map fun q => (.ok q.1, q.2) := by
  rw [assembleUpdates, List.map_map, List.map_map]
  refine List.map_congr_left fun p hp => ?_
  have hwf : (Instr.update p.length).wf = true := countFits_of_le (updatePieces_length_le hp)
  simp [decodeOfEncode _ hwf]

theorem assemblesTo_update (bs : List Byte) :
    assemblesTo (.update bs) ((updatePieces bs).map fun p => (.update p.length, p)) :=
  ⟨_, rfl, assembleUpdates_decode bs⟩

theorem assemblesTo_hash (alg : Alg) (bs : List Byte) :
    assemblesTo (.hash alg bs)
      ((.init alg, []) :: ((updatePieces bs).map fun p => (.update p.length, p)) ++ [(.result, [])]) := by
  refine ⟨_, rfl, ?_⟩
  have hinit : decode (encode (.init alg)) = .ok (.init alg) := decodeOfEncode _ rfl
  have hresult : decode (encode .result) = .ok .result := decodeOfEncode _ rfl
  simp only [List.map_append, List.map_cons, List.map_nil, assembleUpdates_decode, hinit, hresult]

theorem assemble_hmac_of_le {alg : Alg} {secret msg : List Byte} (hs : secret.length ≤ maxPayload)
    (hm : msg.length ≤ maxPayload) :
    assemble (.hmac alg secret msg) =
      some [(encode (.hkey alg secret.length), secret), (encode (.hsign msg.length), msg)] := by
  simp [assemble, assembleCommand_of_le hs, assembleCommand_of_le hm]

theorem assemble_hmac_of_lt {alg : Alg} {secret msg : List Byte}
    (h : maxPayload < secret.length ∨ maxPayload < msg.length) :
    assemble (.hmac alg secret msg) = none := by
  rcases h with h | h
  · simp [assemble, assembleCommand_of_lt h]
  · simp [assemble, assembleCommand_of_lt h]

theorem assemblesTo_hmac {alg : Alg} {secret msg : List Byte} (hs : secret.length ≤ maxPayload)
    (hm : msg.length ≤ maxPayload) :
    assemblesTo (.hmac alg secret msg) [(.hkey alg secret.length, secret), (.hsign msg.length, msg)] := by
  refine ⟨_, assemble_hmac_of_le hs hm, ?_⟩
  have hkey : decode (encode (.hkey alg secret.length)) = .ok (.hkey alg secret.length) :=
    decodeOfEncode _ (countFits_of_le hs)
  have hsign : decode (encode (.hsign msg.length)) = .ok (.hsign msg.length) := decodeOfEncode _ (countFits_of_le hm)
  simp [hkey, hsign]

/-! ## Every transaction counts its payload -/

/-- A line that assembles to commands which count their payloads has words that count them. -/
theorem counted_of_assemblesTo {l : AsmLine} {is : List (Instr × List Byte)} {ts : List Transaction}
    (h : assemblesTo l is) (hcount : ∀ q ∈ is, q.1.count = q.2.length) (hts : assemble l = some ts) :
    ∀ p ∈ ts, ∃ i, decode p.1 = .ok i ∧ i.count = p.2.length := by
  obtain ⟨ts', hts', hmap⟩ := h
  obtain rfl : ts = ts' := Option.some.inj (hts.symm.trans hts')
  intro p hp
  have hmem : (decode p.1, p.2) ∈ is.map fun q => (Except.ok q.1, q.2) := hmap ▸ List.mem_map_of_mem hp
  obtain ⟨q, hq, heq⟩ := List.mem_map.mp hmem
  obtain ⟨hdec, hpay⟩ := Prod.mk.inj heq
  exact ⟨q.1, hdec.symm, hpay ▸ hcount q hq⟩

/-- A line of one command assembles to nothing, or to a word that counts its payload. -/
theorem counted_of_command {l : AsmLine} {i : Instr} {bs : List Byte} {ts : List Transaction}
    (hl : assemble l = assembleCommand i bs) (hcount : i.count = bs.length) (hts : assemble l = some ts) :
    ∀ p ∈ ts, ∃ i, decode p.1 = .ok i ∧ i.count = p.2.length := by
  rcases Nat.lt_or_ge maxPayload bs.length with hlt | hle
  · rw [hl, assembleCommand_of_lt hlt] at hts
    cases hts
  · have hwf : i.wf = true := by rw [wf_eq_countFits, hcount, countFits_of_le hle]
    exact counted_of_assemblesTo (assemblesTo_of_command hl hle hwf) (by simpa using hcount) hts

theorem counted_of_assemble {l : AsmLine} {ts : List Transaction} (hl : ∀ w bs, l ≠ .word w bs)
    (hts : assemble l = some ts) : ∀ p ∈ ts, ∃ i, decode p.1 = .ok i ∧ i.count = p.2.length := by
  have hupdates (bs : List Byte) :
      ∀ q ∈ (updatePieces bs).map fun p => (Instr.update p.length, p), q.1.count = q.2.length := by
    simp [Instr.count]
  cases l with
  | init alg => exact counted_of_command (i := .init alg) (bs := []) rfl rfl hts
  | reset => exact counted_of_command (i := .reset) (bs := []) rfl rfl hts
  | update bs => exact counted_of_assemblesTo (assemblesTo_update bs) (hupdates bs) hts
  | result => exact counted_of_command (i := .result) (bs := []) rfl rfl hts
  | digest alg bs => exact counted_of_command (i := .digest alg bs.length) (bs := bs) rfl rfl hts
  | hkey alg bs => exact counted_of_command (i := .hkey alg bs.length) (bs := bs) rfl rfl hts
  | hsign bs => exact counted_of_command (i := .hsign bs.length) (bs := bs) rfl rfl hts
  | clrerr => exact counted_of_command (i := .clrerr) (bs := []) rfl rfl hts
  | word w bs => exact absurd rfl (hl w bs)
  | hmac alg secret msg =>
    by_cases h : maxPayload < secret.length ∨ maxPayload < msg.length
    · rw [assemble_hmac_of_lt h] at hts
      cases hts
    · rw [not_or, Nat.not_lt, Nat.not_lt] at h
      exact counted_of_assemblesTo (assemblesTo_hmac h.1 h.2) (by simp [Instr.count]) hts
  | hash alg bs =>
    refine counted_of_assemblesTo (assemblesTo_hash alg bs) (fun q hq => ?_) hts
    simp only [List.mem_append, List.mem_cons, List.not_mem_nil, or_false] at hq
    obtain (rfl | hq) | rfl := hq
    · rfl
    · exact hupdates bs q hq
    · rfl

/-- Settles O52: each line assembles to one command, or to several, each with its own payload. -/
theorem assembledLinesAreFramed : Obligations.AssembledLinesAreFramed := by
  unfold Obligations.AssembledLinesAreFramed
  have hnil : ([] : List Byte).length ≤ maxPayload := Nat.zero_le _
  refine ⟨fun l ts hts hl => counted_of_assemble hl hts, fun alg => assemblesTo_of_command rfl hnil rfl,
    assemblesTo_of_command rfl hnil rfl, assemblesTo_of_command rfl hnil rfl, assemblesTo_of_command rfl hnil rfl,
    fun bs => ⟨_, updatePieces_isSplit bs, assemblesTo_update bs⟩,
    fun alg bs => ⟨fun h => assemblesTo_of_command rfl h (countFits_of_le h), assembleCommand_of_lt⟩,
    fun alg bs => ⟨fun h => assemblesTo_of_command rfl h (countFits_of_le h), assembleCommand_of_lt⟩,
    fun bs => ⟨fun h => assemblesTo_of_command rfl h (countFits_of_le h), assembleCommand_of_lt⟩,
    fun w bs => ⟨assembleWord_of_le, assembleWord_of_lt⟩,
    fun alg secret msg => ⟨assemblesTo_hmac, assemble_hmac_of_lt⟩,
    fun alg bs => ⟨_, updatePieces_isSplit bs, assemblesTo_hash alg bs⟩, fun _ _ => rfl⟩

/-! ## Running offered commands -/

theorem runSteps_succ {n : Nat} {s t : State} (h : step s = .next t) : runSteps (n + 1) s = runSteps n t := by
  rw [runSteps, h]

/-- The core lets itself be offered the next command: the host has no move left, and nothing is in progress. -/
structure State.Awaits (s : State) : Prop where
  script : s.script = []
  rst : s.rst = false
  activity : s.activity = .idle
  dout : s.dout = []

/-- A command that completes without output leaves the core awaiting the next one. -/
theorem State.Awaits.of_frames {s t : State} (h : s.Awaits) (hact : t.activity = .idle) (hout : sameOutput s t)
    (hhost : sameHost s t) : t.Awaits := by
  obtain ⟨hdout, -, -⟩ := hout
  obtain ⟨-, hrst, -, hscript⟩ := hhost
  exact ⟨hscript.trans h.script, hrst.trans h.rst, hact, hdout.trans h.dout⟩

/-- The state with other words offered. -/
def State.setCmds (cs : List Word32) (s : State) : State := { s with cmds := cs }

theorem State.Awaits.setCmds {s : State} (h : s.Awaits) (cs : List Word32) : (s.setCmds cs).Awaits :=
  ⟨h.script, h.rst, h.activity, h.dout⟩

/-- The next step runs the command whose word is offered first. -/
theorem step_of_awaits {s : State} {i : Instr} {cs : List Word32} (h : s.Awaits) (hwf : i.wf = true)
    (hcmds : s.cmds = encode i :: cs) : step s = exec i (s.setCmds cs) := by
  obtain ⟨hrun, -⟩ := stepRunsDecodedCommand s (encode i) cs h.script h.rst h.activity hcmds
  exact hrun i (decodeOfEncode i hwf)

/-- Output that the host stands ready for is taken at once, and the command completes. -/
theorem taken_of_wroteOutput {out : List Byte} {s t : State} (h : wroteOutput out s t) (hdout : s.dout = [])
    (hcredit : out.length ≤ s.credit) : t.taken = s.taken ++ out ∧ t.activity = .idle := by
  obtain ⟨hout, hdout', -, hact⟩ := h
  rw [hdout, List.nil_append, List.drop_of_length_le hcredit] at hdout'
  rw [State.output, State.output, hdout, hdout', List.append_nil, List.append_nil] at hout
  rw [hdout, List.nil_append, if_pos hcredit] at hact
  exact ⟨hout, hact⟩

/-- UPDATEs offered with their pieces add the pieces to the message, a step for each. -/
theorem run_updates {alg : Alg} {cs : List Word32} {rest : List Byte} (ps : List (List Byte)) {m : List Byte}
    {s : State} (hps : ∀ p ∈ ps, p.length ≤ maxPayload) (h : s.Awaits) (hD : s.D.Holds alg m)
    (hcmds : s.cmds = ps.map (fun p => encode (.update p.length)) ++ cs) (hdin : s.din = ps.flatten ++ rest) :
    ∃ t, (∀ n, runSteps (ps.length + n) s = runSteps n t) ∧ t.Awaits ∧ t.D.Holds alg (m ++ ps.flatten) ∧ t.cmds = cs ∧
      t.din = rest ∧ sameOutput s t := by
  induction ps generalizing m s with
  | nil => exact ⟨s, fun n => by rw [List.length_nil, Nat.zero_add], h, by simpa using hD, hcmds, hdin, rfl, rfl, rfl⟩
  | cons p ps ih =>
    have hwf : (Instr.update p.length).wf = true := countFits_of_le (hps p List.mem_cons_self)
    rw [List.flatten_cons, List.append_assoc] at hdin
    obtain ⟨u, hu, hDu, hdinu, hactu, houtu, hhostu⟩ := exec_update_holds
      (s := s.setCmds (ps.map (fun p => encode (.update p.length)) ++ cs)) (count := p.length)
      (by simp [State.setCmds, hdin]) hD
    rw [State.setCmds, hdin, List.take_left] at hDu
    rw [State.setCmds, hdin, List.drop_left] at hdinu
    have hu_awaits : u.Awaits := (h.setCmds _).of_frames hactu houtu hhostu
    have hstep := (step_of_awaits h hwf hcmds).trans hu
    obtain ⟨t, hrun, ht, hDt, hcmdst, hdint, hdoutt, htakent, hcreditt⟩ :=
      ih (fun q hq => hps q (List.mem_cons_of_mem p hq)) hu_awaits hDu hhostu.1 hdinu
    obtain ⟨hdoutu, htakenu, hcreditu⟩ := houtu
    refine ⟨t, fun n => ?_, ht, ?_, hcmdst, hdint, hdoutt.trans hdoutu, htakent.trans htakenu, hcreditt.trans hcreditu⟩
    · rw [List.length_cons, Nat.add_right_comm, runSteps_succ hstep, hrun]
    · rw [List.flatten_cons, ← List.append_assoc]
      exact hDt

theorem digest_length_le (alg : Alg) (m : List Byte) : (digest alg m).length ≤ 64 := by
  rw [digest_length]
  exact Alg.N_le alg

/-- INIT, UPDATEs of the pieces and RESULT, offered together, write the digest of the pieces put together. -/
theorem run_hash {alg : Alg} {ps : List (List Byte)} {s : State} (hps : ∀ p ∈ ps, p.length ≤ maxPayload)
    (h : s.Awaits) (hcredit : 64 ≤ s.credit)
    (hcmds : s.cmds = encode (.init alg) :: (ps.map (fun p => encode (.update p.length)) ++ [encode .result]))
    (hdin : s.din = ps.flatten) :
    ∃ t, runSteps (ps.length + 1 + 1) s = .next t ∧ t.taken = s.taken ++ digest alg ps.flatten ∧ t.activity = .idle ∧
      t.cmds = [] ∧ t.din = [] := by
  obtain ⟨s1, h1, hD1, hdin1, hact1, hout1, hhost1⟩ :=
    exec_init_holds alg (s.setCmds (ps.map (fun p => encode (.update p.length)) ++ [encode .result]))
  have hawaits1 : s1.Awaits := (h.setCmds _).of_frames hact1 hout1 hhost1
  have hdin1 : s1.din = ps.flatten ++ [] := by rw [hdin1, List.append_nil]; exact hdin
  obtain ⟨s2, hrun, h2, hD2, hcmds2, hdin2, -, htaken2, hcredit2⟩ := run_updates ps hps hawaits1 hD1 hhost1.1 hdin1
  obtain ⟨t, ht, hwrote, hdint, hhostt⟩ := exec_result_holds (s := s2.setCmds []) hD2
  obtain ⟨-, htaken1, hcredit1⟩ := hout1
  have hcredit2 : s2.credit = s.credit := hcredit2.trans hcredit1
  obtain ⟨htaken, hact⟩ := taken_of_wroteOutput hwrote h2.dout
    ((digest_length_le ..).trans (hcredit2.symm ▸ hcredit))
  refine ⟨t, ?_, ?_, hact, hhostt.1, hdint.trans hdin2⟩
  · rw [runSteps_succ ((step_of_awaits h rfl hcmds).trans h1), hrun 1,
      runSteps_succ ((step_of_awaits h2 rfl hcmds2).trans ht), runSteps]
  · rw [htaken, List.nil_append]
    exact congrArg (· ++ _) (htaken2.trans htaken1)

/-- Settles O53: the line assembles to INIT, UPDATEs of its pieces and RESULT. -/
theorem hashPseudoCommandOutputsDigest : Obligations.HashPseudoCommandOutputsDigest := by
  unfold Obligations.HashPseudoCommandOutputsDigest
  intro alg bs ts s hts hscript hrst hidle hdout hcredit
  obtain rfl := Option.some.inj hts
  obtain ⟨hflat, hle, -⟩ := updatePieces_isSplit bs
  obtain ⟨t, hrun, htaken, hdone⟩ := run_hash (alg := alg)
    (s := { s with
      cmds := encode (.init alg) :: ((updatePieces bs).map (fun p => encode (.update p.length)) ++ [encode .result])
      din := (updatePieces bs).flatten })
    hle ⟨hscript, hrst, hidle, hdout⟩ hcredit rfl rfl
  rw [hflat] at htaken
  refine ⟨t, ?_, htaken, hdone⟩
  simpa [assembleUpdates, Function.comp_def] using hrun

/-- HKEY and HSIGN, offered together, write the HMAC. -/
theorem run_hmac {alg : Alg} {secret msg : List Byte} {s : State} (hs : secret.length ≤ maxPayload)
    (hm : msg.length ≤ maxPayload) (h : s.Awaits) (hK : s.K.wf) (hcredit : 64 ≤ s.credit)
    (hcmds : s.cmds = [encode (.hkey alg secret.length), encode (.hsign msg.length)]) (hdin : s.din = secret ++ msg) :
    ∃ t, runSteps 2 s = .next t ∧ t.taken = s.taken ++ hmacOf alg (derivedKey alg secret) msg ∧ t.activity = .idle ∧
      t.cmds = [] ∧ t.din = [] ∧ t.D = s.D := by
  obtain ⟨s1, h1, hkey, hdin1, hact1, hD1, hout1, hhost1⟩ :=
    exec_hkey_secret alg (s := s.setCmds [encode (.hsign msg.length)]) hK hdin
  have hawaits1 : s1.Awaits := (h.setCmds _).of_frames hact1 hout1 hhost1
  obtain ⟨t, ht, hwrote, hdint, hDt, hhostt⟩ := exec_hsign_hmac (s := s1.setCmds []) (msg := msg) (rest := [])
    ⟨hkey.K, hkey.KALG, hkey.KVALID⟩ (hdin1.trans (List.append_nil msg).symm)
  obtain ⟨-, htaken1, hcredit1⟩ := hout1
  have hcredit1 : s1.credit = s.credit := hcredit1
  obtain ⟨htaken, hact⟩ := taken_of_wroteOutput hwrote hawaits1.dout
    ((digest_length_le ..).trans (hcredit1.symm ▸ hcredit))
  refine ⟨t, ?_, htaken.trans (congrArg (· ++ _) htaken1), hact, hhostt.1, hdint, hDt.trans hD1⟩
  have hstep := step_of_awaits (i := .hkey alg secret.length) h (countFits_of_le hs) hcmds
  have hstep1 := step_of_awaits (i := .hsign msg.length) hawaits1 (countFits_of_le hm) hhost1.1
  rw [runSteps_succ (hstep.trans h1), runSteps_succ (hstep1.trans ht), runSteps]

/-- Settles O54: the line assembles, where it does, to HKEY of the secret and HSIGN of the message. -/
theorem hmacPseudoCommandOutputsMac : Obligations.HmacPseudoCommandOutputsMac := by
  unfold Obligations.HmacPseudoCommandOutputsMac
  intro alg secret msg ts s hts hK hscript hrst hidle hdout hcredit
  by_cases hfit : maxPayload < secret.length ∨ maxPayload < msg.length
  · rw [assemble_hmac_of_lt hfit] at hts
    cases hts
  · rw [not_or, Nat.not_lt, Nat.not_lt] at hfit
    obtain ⟨hs, hm⟩ := hfit
    obtain rfl := Option.some.inj ((assemble_hmac_of_le hs hm).symm.trans hts)
    exact run_hmac hs hm ⟨hscript, hrst, hidle, hdout⟩ hK hcredit rfl (by simp)

end Sys2Proof.Machine
end
